-- ==== Sys2Proof/Word.lean ====
section
/-! DEFINITION. The two widths of LLTSVM CORE: the 8-bit byte, the unit of memory and of opcodes and
register bytes, and the 16-bit word of registers, literals and addresses (`00_scope.md` R5, R6). -/

namespace Sys2Proof

/-- A byte of memory, an opcode byte or a register byte: an unsigned value `0..255` (R5, R6). -/
abbrev Byte := BitVec 8

/-- A register's value, a literal or an address: an unsigned value `0..65535` (R5, R6). -/
abbrev Word := BitVec 16

end Sys2Proof
end

