-- ==== Sys2Proof/Config.lean ====
section
/-! DEFINITION. The constants of the hardware (`00_scope.md` R5) and the two values the spec leaves to
the environment, as far as `Machine.State.reset` needs one (log entries 1 and 2). `MEM_SIZE` and `M0`
themselves are parts of the state: a statement about every state is about every size and every image. -/

namespace Sys2Proof.Config

/-- `NREG`, the number of registers and the divisor of the register-byte reduction: the constant 10
(R5, decision D16). -/
def numRegs : Nat := 10

/-- The largest `MEM_SIZE` of an instance (R5, decision D2). -/
def maxMemSize : Nat := 65536

/-- The number of bytes of the longest instruction, `JMP_NOT_EQL` (`30_encoding.md` R51). -/
def maxInstrBytes : Nat := 5

/-- What an address of memory that the list of cells does not name reads as.
DESIGN CHOICE (log entry 2): the spec gives memory no reset contents (`10_state.md` R26, decision D7). -/
def unlistedByte : Byte := 0x00

/-- The `MEM_SIZE` of `Machine.State.reset`.
DESIGN CHOICE (log entry 1): the spec leaves `MEM_SIZE` a parameter (R5, decision D2). -/
def resetMemSize : Nat := 65536

end Sys2Proof.Config
end

