-- ==== Sys2Proof/Syntax.lean ====
section
/-! DEFINITION. The closed instruction set: six instructions, one constructor per row of
`spec/opcode_table.json` (`00_scope.md` R2, `30_encoding.md` R53), the names of their opcodes, the four
formats of R52, and the widths of operands and of memory accesses. -/

namespace Sys2Proof

/-- One instruction with its operands in fetch order (R53). A register operand is kept as the byte the
instruction holds; `RegIdx` (R56) is applied where the operand is used (log entry 6). -/
inductive Instr where
  /-- `MOV_LIT_REG`, opcode `0x10`: `literal:16, regByte:8` (`41_mov.md` R80). -/
  | movLitReg (literal : Word) (regByte : Byte)
  /-- `MOV_REG_REG`, opcode `0x11`: `fromByte:8, toByte:8` (`41_mov.md` R81). -/
  | movRegReg (fromByte toByte : Byte)
  /-- `MOV_REG_MEM`, opcode `0x12`: `fromByte:8, address:16` (`41_mov.md` R82). -/
  | movRegMem (fromByte : Byte) (address : Word)
  /-- `MOV_MEM_REG`, opcode `0x13`: `address:16, toByte:8` (`41_mov.md` R83). -/
  | movMemReg (address : Word) (toByte : Byte)
  /-- `ADD_REG_REG`, opcode `0x14`: `reg1Byte:8, reg2Byte:8` (`42_add.md` R90). -/
  | addRegReg (reg1Byte reg2Byte : Byte)
  /-- `JMP_NOT_EQL`, opcode `0x15`: `value:16, address:16` (`43_jmp.md` R95). -/
  | jmpNotEql (value address : Word)
deriving DecidableEq, Repr

/-- The six valid opcodes by name (R53). -/
inductive Opcode where
  | movLitReg | movRegReg | movRegMem | movMemReg | addRegReg | jmpNotEql
deriving DecidableEq, Repr

/-- The four formats of R52, named after the operand widths: `B` 8 bits, `W` 16 bits. -/
inductive Format where
  | WB | BB | BW | WW
deriving DecidableEq, Repr

/-- The width of one operand or of one memory access: `n = 1` or `n = 2` bytes (`00_scope.md` R7). -/
inductive Width where
  | w8 | w16
deriving DecidableEq, Repr

end Sys2Proof
end

