-- ==== Sys2Proof/WellFormed.lean ====
section
/-! DEFINITION. What makes an instruction well formed, and what makes it canonical.
Every operand value is legal once the opcode is valid (`30_encoding.md` R59), and the field widths are
in the types, so well-formedness refuses nothing. The checks that do refuse are the two the spec has:
the canonical register byte of an assembler (R57, R62) and the size of an instance's memory
(`00_scope.md` R5, decision D2). -/

namespace Sys2Proof

/-- Every instruction of the type is one the decoder accepts: all 65536 values of a 16-bit operand and
all 256 values of a register byte are legal (R55, R56, R59). One arm per constructor, so that a further
instruction could not slip past. -/
def Instr.wellFormed : Instr → Bool
  | .movLitReg _ _ => true
  | .movRegReg _ _ => true
  | .movRegMem _ _ => true
  | .movMemReg _ _ => true
  | .addRegReg _ _ => true
  | .jmpNotEql _ _ => true

/-- The canonical register byte of a register: the byte equal to the register number (R57). -/
def canonicalByte (b : Byte) : Bool := b.toNat < Config.numRegs

/-- The register bytes an instruction holds, in fetch order (R53). -/
def Instr.registerBytes : Instr → List Byte
  | .movLitReg _ rb => [rb]
  | .movRegReg fb tb => [fb, tb]
  | .movRegMem fb _ => [fb]
  | .movMemReg _ tb => [tb]
  | .addRegReg b1 b2 => [b1, b2]
  | .jmpNotEql _ _ => []

/-- An instruction as the spec's own assembler emits it: every register byte canonical (R62). -/
def Instr.canonical (i : Instr) : Bool := i.registerBytes.all canonicalByte

/-- The sizes an instance's memory may have: `1 ≤ MEM_SIZE ≤ 65536` (R5, decision D2). -/
def memSizeOk (n : Nat) : Bool := 1 ≤ n && n ≤ Config.maxMemSize

end Sys2Proof
end

