-- ==== Sys2Proof/Decode.lean ====
section
/-! DEFINITION. The instruction encoding of `30_encoding.md`: the byte order of 16-bit operands, the
opcode map, the formats and lengths, a decoder that is total on bytes and rejects by name, the encoder
written from the same tables, and the reading of a word numbered as `spec/opcode_table.json` numbers it. -/

namespace Sys2Proof

/-! ### Byte order (`20_memory.md` R31, `30_encoding.md` R55) -/

/-- The 16-bit value of two bytes, the one at the lower address first: `hi × 256 + lo` (R31, R55). -/
def beWord (hi lo : Byte) : Word := BitVec.ofNat 16 (hi.toNat * 256 + lo.toNat)

/-- Bits 15:8 of a word, the byte that stands at the lower address (R31). -/
def hiByte (w : Word) : Byte := BitVec.ofNat 8 (w.toNat / 256)

/-- Bits 7:0 of a word, the byte that stands at the higher address (R31). -/
def loByte (w : Word) : Byte := BitVec.ofNat 8 (w.toNat % 256)

/-! ### The opcode map, the formats and the lengths (R51 to R53) -/

/-- The number of bytes of an operand or an access (`00_scope.md` R7). -/
def Width.bytes : Width → Nat
  | .w8 => 1
  | .w16 => 2

/-- The opcode byte of an opcode (R53). -/
def Opcode.byte : Opcode → Byte
  | .movLitReg => 0x10
  | .movRegReg => 0x11
  | .movRegMem => 0x12
  | .movMemReg => 0x13
  | .addRegReg => 0x14
  | .jmpNotEql => 0x15

/-- The whole 8-bit value of the first byte selects the instruction; the other 250 values are invalid
(R53, R58). -/
def Opcode.ofByte (op : Byte) : Option Opcode :=
  match op.toNat with
  | 0x10 => some .movLitReg
  | 0x11 => some .movRegReg
  | 0x12 => some .movRegMem
  | 0x13 => some .movMemReg
  | 0x14 => some .addRegReg
  | 0x15 => some .jmpNotEql
  | _ => none

/-- The format of an opcode (R52, R53). -/
def Opcode.format : Opcode → Format
  | .movLitReg => .WB
  | .movRegReg => .BB
  | .movRegMem => .BW
  | .movMemReg => .WB
  | .addRegReg => .BB
  | .jmpNotEql => .WW

/-- The operand widths of a format, in fetch order (R52). -/
def Format.widths : Format → List Width
  | .WB => [.w16, .w8]
  | .BB => [.w8, .w8]
  | .BW => [.w8, .w16]
  | .WW => [.w16, .w16]

/-- The length `L` of an instruction in bytes: the opcode byte and the operand widths (R51). -/
def Opcode.length (o : Opcode) : Nat := 1 + (o.format.widths.map Width.bytes).sum

/-- The opcode of an instruction. -/
def Instr.opcode : Instr → Opcode
  | .movLitReg _ _ => .movLitReg
  | .movRegReg _ _ => .movRegReg
  | .movRegMem _ _ => .movRegMem
  | .movMemReg _ _ => .movMemReg
  | .addRegReg _ _ => .addRegReg
  | .jmpNotEql _ _ => .jmpNotEql

/-- The length of an instruction in bytes (R51). -/
def Instr.length (i : Instr) : Nat := i.opcode.length

/-- The mnemonic of an opcode (R2, R61). -/
def Opcode.mnemonic : Opcode → String
  | .movLitReg => "MOV_LIT_REG"
  | .movRegReg => "MOV_REG_REG"
  | .movRegMem => "MOV_REG_MEM"
  | .movMemReg => "MOV_MEM_REG"
  | .addRegReg => "ADD_REG_REG"
  | .jmpNotEql => "JMP_NOT_EQL"

/-! ### The decoder on bytes (R50, R60) -/

/-- What the decoder reads from the bytes that begin at an opcode byte. -/
inductive Decoded where
  /-- An instruction, and the bytes that follow its last operand. -/
  | instr (i : Instr) (rest : List Byte)
  /-- The first byte is no opcode: `UnknownInstruction` carries it (R58). -/
  | unknownInstruction (op : Byte)
  /-- The bytes end before the last operand. On the machine a fetch decides this case, by the bounds
  of memory (`20_memory.md` R35). -/
  | truncated
deriving DecidableEq, Repr

/-- The operands of an opcode, taken from bytes in fetch order (R52). -/
def decodeOperands : Opcode → List Byte → Option (Instr × List Byte)
  | .movLitReg, lhi :: llo :: rb :: rest => some (.movLitReg (beWord lhi llo) rb, rest)
  | .movRegReg, fb :: tb :: rest => some (.movRegReg fb tb, rest)
  | .movRegMem, fb :: ahi :: alo :: rest => some (.movRegMem fb (beWord ahi alo), rest)
  | .movMemReg, ahi :: alo :: tb :: rest => some (.movMemReg (beWord ahi alo) tb, rest)
  | .addRegReg, b1 :: b2 :: rest => some (.addRegReg b1 b2, rest)
  | .jmpNotEql, vhi :: vlo :: thi :: tlo :: rest => some (.jmpNotEql (beWord vhi vlo) (beWord thi tlo), rest)
  | _, _ => none

/-- The decoder, total on every list of bytes (R60). -/
def decode : List Byte → Decoded
  | [] => .truncated
  | op :: bytes =>
    match Opcode.ofByte op with
    | none => .unknownInstruction op
    | some o =>
      match decodeOperands o bytes with
      | none => .truncated
      | some (i, rest) => .instr i rest

/-! ### The encoder (R50, R52) -/

/-- The bytes of a 16-bit operand (R31, R55). -/
def wordBytes (w : Word) : List Byte := [hiByte w, loByte w]

/-- The operand bytes of an instruction in fetch order (R52). -/
def encodeOperands : Instr → List Byte
  | .movLitReg lit rb => wordBytes lit ++ [rb]
  | .movRegReg fb tb => [fb, tb]
  | .movRegMem fb addr => fb :: wordBytes addr
  | .movMemReg addr tb => wordBytes addr ++ [tb]
  | .addRegReg b1 b2 => [b1, b2]
  | .jmpNotEql val tgt => wordBytes val ++ wordBytes tgt

/-- The bytes of an instruction at ascending addresses (R50). -/
def encode (i : Instr) : List Byte := i.opcode.byte :: encodeOperands i

/-! ### Words numbered as `spec/opcode_table.json` numbers them (R52, log entry 7) -/

/-- The `n` bytes of a number, the most significant first. -/
def bigEndianBytes : Nat → Nat → List Byte
  | 0, _ => []
  | n + 1, w => BitVec.ofNat 8 (w / 256 ^ n) :: bigEndianBytes n w

/-- The bytes of a table word at ascending addresses, filled with zeros up to the longest instruction:
the table numbers an instruction of `nbits` bits as one big-endian bit string, the opcode byte in its
top eight bits (R52). -/
def tableWordBytes (nbits w : Nat) : List Byte :=
  bigEndianBytes ((nbits + 7) / 8) w ++ List.replicate (Config.maxInstrBytes - (nbits + 7) / 8) 0

/-- The instruction the decoder reads from a table word; none where it rejects the bytes. -/
def decodeTableWord (nbits w : Nat) : Option Instr :=
  match decode (tableWordBytes nbits w) with
  | .instr i _ => if i.wellFormed then some i else none
  | .unknownInstruction _ => none
  | .truncated => none

end Sys2Proof
end

