-- ==== Sys2Proof/Machine/State.lean ====
section
/-! DEFINITION. The state of LLTSVM CORE as plain data: the ten registers and main memory, and nothing
else (`10_state.md` R10); the faults with the state each leaves (`60_exceptions.md` R120 to R127); the
refusals; the state after reset (`70_reset_and_hazards.md` R141). -/

namespace Sys2Proof.Machine

/-! ### Registers (`10_state.md` R11) -/

/-- The ten names of the Register Name Table, in its order. -/
inductive RegName where
  | ip | acc | r1 | r2 | r3 | r4 | r5 | r6 | r7 | r8
deriving DecidableEq, Repr

/-- The register bank as ten 16-bit words (R11, R14, decision D14). -/
structure Regs where
  /-- Register number 0, the instruction pointer (R15). -/
  ip  : Word
  /-- Register number 1, the accumulator (R19). -/
  acc : Word
  r1  : Word
  r2  : Word
  r3  : Word
  r4  : Word
  r5  : Word
  r6  : Word
  r7  : Word
  r8  : Word
deriving DecidableEq, Repr

/-- Every register holds `0x0000`: the bank is zero-filled at construction (R25). -/
def Regs.zero : Regs := ⟨0, 0, 0, 0, 0, 0, 0, 0, 0, 0⟩

/-! ### Main memory (`10_state.md` R20) -/

/-- `MEM_SIZE`, the number of bytes of main memory, `1 ≤ MEM_SIZE ≤ 65536` (`00_scope.md` R5, decision
D2): a size outside the range is no value of the type. -/
structure MemSize where
  val : Nat
  pos : 1 ≤ val
  le  : val ≤ Config.maxMemSize
deriving DecidableEq, Repr

/-- Main memory: its fixed size, and its bytes as a list of cells; an address the list does not name
reads as `Config.unlistedByte` (log entry 2). -/
structure Memory where
  size  : MemSize
  cells : List Host.Cell
deriving DecidableEq, Repr

/-- The one form of a memory: addresses strictly rising and inside memory, and no cell that holds what
an unlisted address reads as, so that equal memories are equal data. -/
abbrev Memory.wf (m : Memory) : Prop :=
  m.cells.Pairwise (fun c d => c.1 < d.1) ∧
  ∀ c ∈ m.cells, c.1 < m.size.val ∧ c.2 ≠ Config.unlistedByte

/-- A memory of a given size with nothing listed: every byte is `Config.unlistedByte`. -/
def Memory.blank (size : MemSize) : Memory := ⟨size, []⟩

/-! ### The state (`10_state.md` R10) -/

/-- The entire architectural state: the register bank and main memory (R10). -/
structure State where
  regs : Regs
  mem  : Memory
deriving DecidableEq, Repr

/-! ### Faults and refusals (`60_exceptions.md` R120 to R125) -/

/-- The direction of a memory access, a part of a `BoundsViolation`'s payload (R122). -/
inductive AccessKind where
  | read | write
deriving DecidableEq, Repr

/-- The three fault kinds of R120 with the payloads of R122. Each carries, last, the state it leaves
(R121, R126): a fault keeps every write made before it, and the core accepts the next step from that
state (R127; decision D4, log entry 4). -/
inductive Fault where
  /-- Raised by the dispatch of a step on an opcode byte outside `0x10 .. 0x15` (R123).
  Exact, and so safe: the source defines this fault. -/
  | unknownInstruction (op : Byte) (left : State)
  /-- Raised by the host's `getRegister` and `setRegister` only, on a name outside the table (R124).
  Exact, and so safe: the source defines this fault; names are compared exactly (decision D10). -/
  | unknownRegister (name : String) (left : State)
  /-- Raised by `MemRead` and `MemWrite` when the access is not wholly inside memory (R125).
  Safe: the source leaves such an access open, and the spec's decision D3 stops there. -/
  | boundsViolation (addr : Word) (width : Width) (kind : AccessKind) (left : State)
deriving DecidableEq, Repr

/-- Why the model gives no meaning. No step answers one of these. -/
inductive Refusal where
  /-- Raised by an arm of `exec` for an instruction without a meaning; every instruction has one.
  Safe. -/
  | notModelled (mnemonic : String)
  /-- Raised for the host's own access to memory outside its bounds, which is the provider's matter
  and not the core's (`44_host_interface.md` R107). Safe. -/
  | providerAccess (addr : Nat) (width : Width) (kind : AccessKind)
  /-- Raised for a construction over a memory whose size no instance has (decision D2: refused). Safe. -/
  | memorySize (size : Nat)
deriving DecidableEq, Repr

/-! ### Reset (`44_host_interface.md` R101, `70_reset_and_hazards.md` R140, R141) -/

/-- Construction over a memory: every register is zero and memory is as it was given (R101, R141). -/
def State.construct (m : Memory) : State := ⟨Regs.zero, m⟩

/-- The size of memory at `State.reset` (DESIGN CHOICE, log entry 1). -/
def MemSize.reset : MemSize := ⟨Config.resetMemSize, by decide, by decide⟩

/-- The machine right after reset: the registers as R141 says, over a memory of the size of log entry 1
in which nothing is listed (log entry 2). -/
def State.reset : State := State.construct (Memory.blank MemSize.reset)

end Sys2Proof.Machine
end

