-- ==== Sys2Proof/Machine/Ops.lean ====
section
/-! DEFINITION. The named operations every instruction uses: register read and write (`10_state.md` R12,
R13), the access primitives and their bounds (`20_memory.md` R31 to R35), and raising a fault
(`60_exceptions.md` R121). -/

namespace Sys2Proof.Machine

/-! ### Registers -/

/-- The value of a register of the bank (R12). -/
def Regs.get (r : Regs) : RegName → Word
  | .ip => r.ip
  | .acc => r.acc
  | .r1 => r.r1
  | .r2 => r.r2
  | .r3 => r.r3
  | .r4 => r.r4
  | .r5 => r.r5
  | .r6 => r.r6
  | .r7 => r.r7
  | .r8 => r.r8

/-- The bank with one register replaced (R13). -/
def Regs.set (r : Regs) (n : RegName) (w : Word) : Regs :=
  match n with
  | .ip => { r with ip := w }
  | .acc => { r with acc := w }
  | .r1 => { r with r1 := w }
  | .r2 => { r with r2 := w }
  | .r3 => { r with r3 := w }
  | .r4 => { r with r4 := w }
  | .r5 => { r with r5 := w }
  | .r6 => { r with r6 := w }
  | .r7 => { r with r7 := w }
  | .r8 => { r with r8 := w }

/-- `x[i]`: the value of a register; a read has no side effect (R12). -/
def State.reg (s : State) (n : RegName) : Word := s.regs.get n

/-- `x[i] <- v`, for `v` any natural number: stores `v mod 65536` (R13). -/
def State.setReg (s : State) (n : RegName) (v : Nat) : State :=
  { s with regs := s.regs.set n (BitVec.ofNat 16 v) }

/-- The instruction pointer, register number 0 (R15). -/
def State.ip (s : State) : Word := s.reg .ip

/-- The implicit change of `ip`: `ip <- (ip + k) mod 65536` (R16). -/
def State.advance (s : State) (k : Nat) : State := s.setReg .ip (s.ip.toNat + k)

/-! ### Bytes of memory -/

/-- The byte a list of cells holds at an address. -/
def cellAt : List Host.Cell → Nat → Byte
  | [], _ => Config.unlistedByte
  | (k, v) :: rest, a => if k = a then v else cellAt rest a

/-- `M[a]` (`10_state.md` R20). -/
def Memory.byte (m : Memory) (a : Nat) : Byte := cellAt m.cells a

/-- The cells without the cell of one address. -/
def eraseCell (cells : List Host.Cell) (a : Nat) : List Host.Cell :=
  cells.filter (fun c => c.1 != a)

/-- One cell put before the first cell of a greater address. -/
def insertCell (a : Nat) (v : Byte) : List Host.Cell → List Host.Cell
  | [] => [(a, v)]
  | (k, w) :: rest => if a < k then (a, v) :: (k, w) :: rest else (k, w) :: insertCell a v rest

/-- The cells after a byte is stored: the value an unlisted address reads as is not listed. -/
def storeCell (cells : List Host.Cell) (a : Nat) (v : Byte) : List Host.Cell :=
  if v = Config.unlistedByte then eraseCell cells a else insertCell a v (eraseCell cells a)

/-- `M[a] <- v` (`20_memory.md` R34); the caller has checked the bounds. -/
def Memory.setByte (m : Memory) (a : Nat) (v : Byte) : Memory :=
  { m with cells := storeCell m.cells a v }

/-- `M[a] × 256 + M[a + 1]`, the big-endian word at an address (R31). -/
def Memory.word (m : Memory) (a : Nat) : Word := beWord (m.byte a) (m.byte (a + 1))

/-- `M[a] <- v[15:8]` and `M[a + 1] <- v[7:0]`, in this order (R31, R34). -/
def Memory.setWord (m : Memory) (a : Nat) (v : Word) : Memory :=
  (m.setByte a (hiByte v)).setByte (a + 1) (loByte v)

/-- An access of some width at an address is wholly inside memory: `addr + n ≤ MEM_SIZE`, a sum of
natural numbers without wrap (R35, decision D3, log entry 3). -/
abbrev Memory.inBounds (m : Memory) (a : Nat) (w : Width) : Prop := a + w.bytes ≤ m.size.val

/-! ### Raising a fault -/

/-- `raise K(info)`: the operation in progress ends with the fault, which hands over the state as the
earlier lines left it. The core itself changes nothing: there is no vector, no saved register, no mode
and no return (`60_exceptions.md` R121, R130, R131). -/
def raise {α : Type} (fault : State → Fault) (s : State) : Except Fault α := .error (fault s)

/-! ### The access primitives (`20_memory.md` R33, R34) -/

/-- `MemRead(addr, 1)` (R33). -/
def memRead8 (addr : Word) (s : State) : Except Fault Byte :=
  if s.mem.inBounds addr.toNat .w8 then .ok (s.mem.byte addr.toNat)
  else raise (.boundsViolation addr .w8 .read) s

/-- `MemRead(addr, 2)` (R33). -/
def memRead16 (addr : Word) (s : State) : Except Fault Word :=
  if s.mem.inBounds addr.toNat .w16 then .ok (s.mem.word addr.toNat)
  else raise (.boundsViolation addr .w16 .read) s

/-- `MemWrite(addr, 2, v)` (R34): both bytes or none. -/
def memWrite16 (addr : Word) (v : Word) (s : State) : Except Fault State :=
  if s.mem.inBounds addr.toNat .w16 then .ok { s with mem := s.mem.setWord addr.toNat v }
  else raise (.boundsViolation addr .w16 .write) s

/-- `MemWrite(addr, 1, v)`, the form of the primitive that no instruction uses (R30, R34). -/
def memWrite8 (addr : Word) (v : Byte) (s : State) : Except Fault State :=
  if s.mem.inBounds addr.toNat .w8 then .ok { s with mem := s.mem.setByte addr.toNat v }
  else raise (.boundsViolation addr .w8 .write) s

/-- The outcome of an effect that ends in a state or in a fault (`40_cycle.md` R76). -/
def finish : Except Fault State → Host.Outcome State Fault Refusal
  | .ok s => .next s
  | .error f => .fault f

end Sys2Proof.Machine
end

