-- ==== Sys2Proof/Machine/Operands.lean ====
section
/-! DEFINITION. Operand forms: the register-byte reduction (`30_encoding.md` R56), the register table by
number and by name (`10_state.md` R11), and the reading and writing of a register operand (R18). The
other operand kinds of R54, literals and absolute addresses, are used as the 16-bit values they are. -/

namespace Sys2Proof.Machine

/-- `RegIdx(b) = b mod 10` (R56). -/
def regIdx (b : Byte) : Fin Config.numRegs := ⟨b.toNat % Config.numRegs, Nat.mod_lt _ (by decide)⟩

/-- The register of a register number, its position in the Register Name Table (R11). -/
def RegName.ofNumber (i : Fin Config.numRegs) : RegName :=
  match i.val with
  | 0 => .ip
  | 1 => .acc
  | 2 => .r1
  | 3 => .r2
  | 4 => .r3
  | 5 => .r4
  | 6 => .r5
  | 7 => .r6
  | 8 => .r7
  | _ => .r8

/-- The register number of a register (R11): the number of `rK` is `K + 1`. -/
def RegName.number : RegName → Nat
  | .ip => 0
  | .acc => 1
  | .r1 => 2
  | .r2 => 3
  | .r3 => 4
  | .r4 => 5
  | .r5 => 6
  | .r6 => 7
  | .r7 => 8
  | .r8 => 9

/-- The register a register byte selects (R56). -/
def regOf (b : Byte) : RegName := RegName.ofNumber (regIdx b)

/-- `x[RegIdx(b)]`, a source register operand (R18). -/
def readOperand (b : Byte) (s : State) : Word := s.reg (regOf b)

/-- `x[RegIdx(b)] <- w`, a destination register operand (R18). -/
def writeOperand (b : Byte) (w : Word) (s : State) : State := s.setReg (regOf b) w.toNat

/-- The Register Name Table: the names in their order (R11). -/
def RegName.table : List RegName := [.ip, .acc, .r1, .r2, .r3, .r4, .r5, .r6, .r7, .r8]

/-- The name of a register, lower case, exactly as the table writes it (R11). -/
def RegName.name : RegName → String
  | .ip => "ip"
  | .acc => "acc"
  | .r1 => "r1"
  | .r2 => "r2"
  | .r3 => "r3"
  | .r4 => "r4"
  | .r5 => "r5"
  | .r6 => "r6"
  | .r7 => "r7"
  | .r8 => "r8"

/-- The register of a name, compared character for character (`44_host_interface.md` R105, decision D10);
none where the table does not hold the name. -/
def RegName.ofName (name : String) : Option RegName :=
  RegName.table.find? (fun n => n.name == name)

/-- The canonical register byte of a register, equal to its number (R57, R62). -/
def RegName.byte (n : RegName) : Byte := BitVec.ofNat 8 n.number

/-- The byte offset of a register in the register bank (R11, R14). -/
def RegName.bankOffset (n : RegName) : Nat := 2 * n.number

/-- The register bank as the 20 bytes of R14, register `i` at bytes `2i` and `2i + 1`, high byte first: a
view of the ten words, which no operation of the machine reads (decision D14, log entry 9). -/
def Regs.bankBytes (r : Regs) : List Byte := RegName.table.flatMap (fun n => wordBytes (r.get n))

end Sys2Proof.Machine
end

