-- ==== Sys2Proof/Machine/Flags.lean ====
section
/-! DEFINITION. Arithmetic results and conditions. The machine has no flags, condition codes or
predicates (`10_state.md` R22): the carry of an addition is recorded nowhere, and the one condition of
the instruction set is computed from the operands themselves (`42_add.md` R92). -/

namespace Sys2Proof.Machine

/-- The exact sum of two register values, 17 bits wide; the register write that takes it reduces it
modulo 65536 (`42_add.md` R90, R92). -/
def exactSum (v1 v2 : Word) : Nat := v1.toNat + v2.toNat

/-- The condition of `JMP_NOT_EQL`: the two 16-bit values differ in some bit (`43_jmp.md` R95, R92). -/
def differs (value acc : Word) : Bool := value != acc

end Sys2Proof.Machine
end

