-- ==== Sys2Proof/Machine/Add.lean ====
section
/-! DEFINITION. The arithmetic instruction (`42_add.md`), as phase 2 of `40_cycle.md` R74 (log entry 5). -/

namespace Sys2Proof.Machine

/-- `ADD_REG_REG`: `acc <- (x[RegIdx(b1)] + x[RegIdx(b2)]) mod 65536`; both registers are read before the
write, and the destination is `acc` by name (R90). -/
def execAddRegReg (b1 b2 : Byte) (s : State) : Host.Outcome State Fault Refusal :=
  .next (s.setReg .acc (exactSum (readOperand b1 s) (readOperand b2 s)))

end Sys2Proof.Machine
end

