-- ==== Sys2Proof/Machine/Jmp.lean ====
section
/-! DEFINITION. The jump instruction (`43_jmp.md`), as phase 2 of `40_cycle.md` R74 (log entry 5). -/

namespace Sys2Proof.Machine

/-- `JMP_NOT_EQL`: `ip <- tgt` if `val` differs from `acc`; else `ip` stays at the next instruction. The
target is not checked (R95, R98). -/
def execJmpNotEql (val tgt : Word) (s : State) : Host.Outcome State Fault Refusal :=
  .next (if differs val (s.reg .acc) then s.setReg .ip tgt.toNat else s)

end Sys2Proof.Machine
end

