-- ==== Sys2Proof/Machine/Mov.lean ====
section
/-! DEFINITION. The data movement instructions (`41_mov.md`). Each meaning is phase 2 of `40_cycle.md`
R74: it starts from the state in which all operands have been fetched, so `ip` holds the address of the
next instruction (`10_state.md` R17, log entry 5). -/

namespace Sys2Proof.Machine

/-- `MOV_LIT_REG`: `x[RegIdx(rb)] <- lit` (R80). -/
def execMovLitReg (lit : Word) (rb : Byte) (s : State) : Host.Outcome State Fault Refusal :=
  .next (writeOperand rb lit s)

/-- `MOV_REG_REG`: `x[RegIdx(tb)] <- x[RegIdx(fb)]` (R81). -/
def execMovRegReg (fb tb : Byte) (s : State) : Host.Outcome State Fault Refusal :=
  .next (writeOperand tb (readOperand fb s) s)

/-- `MOV_REG_MEM`: `MemWrite(addr, 2, x[RegIdx(fb)])` (R82). -/
def execMovRegMem (fb : Byte) (addr : Word) (s : State) : Host.Outcome State Fault Refusal :=
  finish (memWrite16 addr (readOperand fb s) s)

/-- `MOV_MEM_REG`: `x[RegIdx(tb)] <- MemRead(addr, 2)` (R83). -/
def execMovMemReg (addr : Word) (tb : Byte) (s : State) : Host.Outcome State Fault Refusal :=
  finish ((memRead16 addr s).map (fun v => writeOperand tb v s))

end Sys2Proof.Machine
end

