-- ==== Sys2Proof/Machine/Dispatch.lean ====
section
/-! DEFINITION. One arm per instruction: phase 2 of `40_cycle.md` R74. -/

namespace Sys2Proof.Machine

def exec (i : Instr) (s : State) : Host.Outcome State Fault Refusal :=
  match i with
  | .movLitReg lit rb => Sys2Proof.Machine.execMovLitReg lit rb s
  | .movRegReg fb tb => Sys2Proof.Machine.execMovRegReg fb tb s
  | .movRegMem fb addr => Sys2Proof.Machine.execMovRegMem fb addr s
  | .movMemReg addr tb => Sys2Proof.Machine.execMovMemReg addr tb s
  | .addRegReg b1 b2 => Sys2Proof.Machine.execAddRegReg b1 b2 s
  | .jmpNotEql val tgt => Sys2Proof.Machine.execJmpNotEql val tgt s

end Sys2Proof.Machine
end

