-- ==== Sys2Proof/Machine/Fetch.lean ====
section
/-! DEFINITION. Fetching (`40_cycle.md` R71 to R74): an operand is read at `ip` and `ip` is advanced past
it, operand by operand, so that a fault leaves `ip` at the operand that could not be read. -/

namespace Sys2Proof.Machine

/-- `Fetch8` (R71): the read comes before the advance (R73). -/
def fetch8 (s : State) : Except Fault (Byte × State) :=
  match memRead8 s.ip s with
  | .ok v => .ok (v, s.advance 1)
  | .error f => .error f

/-- `Fetch16` (R72). -/
def fetch16 (s : State) : Except Fault (Word × State) :=
  match memRead16 s.ip s with
  | .ok v => .ok (v, s.advance 2)
  | .error f => .error f

/-- Phase 1 of an instruction: all operand fetches in the order of its row (R74, `30_encoding.md` R53). -/
def fetchOperands (o : Opcode) (s : State) : Except Fault (Instr × State) :=
  match o with
  | .movLitReg => do
    let (lit, s) ← fetch16 s
    let (rb, s) ← fetch8 s
    return (.movLitReg lit rb, s)
  | .movRegReg => do
    let (fb, s) ← fetch8 s
    let (tb, s) ← fetch8 s
    return (.movRegReg fb tb, s)
  | .movRegMem => do
    let (fb, s) ← fetch8 s
    let (addr, s) ← fetch16 s
    return (.movRegMem fb addr, s)
  | .movMemReg => do
    let (addr, s) ← fetch16 s
    let (tb, s) ← fetch8 s
    return (.movMemReg addr tb, s)
  | .addRegReg => do
    let (b1, s) ← fetch8 s
    let (b2, s) ← fetch8 s
    return (.addRegReg b1 b2, s)
  | .jmpNotEql => do
    let (val, s) ← fetch16 s
    let (tgt, s) ← fetch16 s
    return (.jmpNotEql val tgt, s)

/-- The dispatch on an opcode byte, with its operand fetches: an invalid opcode raises
`UnknownInstruction` and fetches nothing (R74, `30_encoding.md` R58). -/
def fetchInstr (op : Byte) (s : State) : Except Fault (Instr × State) :=
  match Opcode.ofByte op with
  | none => raise (.unknownInstruction op) s
  | some o => fetchOperands o s

end Sys2Proof.Machine
end

