-- ==== Sys2Proof/Machine/Execute.lean ====
section
/-! DEFINITION. `Execute` (`40_cycle.md` R74): the operand fetches of an opcode, then its effect. -/

namespace Sys2Proof.Machine

/-- `Execute(op)`, the second line of `Step`, with `ip` at the first operand byte (R74, R75). -/
def execute (op : Byte) (s : State) : Host.Outcome State Fault Refusal :=
  match fetchInstr op s with
  | .ok (i, t) => exec i t
  | .error f => .fault f

/-- `Step()`: fetch the opcode byte, then execute it (R70). -/
def fetchAndExecute (s : State) : Host.Outcome State Fault Refusal :=
  match fetch8 s with
  | .ok (op, t) => execute op t
  | .error f => .fault f

end Sys2Proof.Machine
end

