-- ==== Sys2Proof/Machine/Provider.lean ====
section
/-! DEFINITION. The memory provider's own access to main memory, which the host uses between steps without
passing through the core (`44_host_interface.md` R107, `20_memory.md` R30), and the loading of bytes. -/

namespace Sys2Proof.Machine

/-- The provider's `get8` and `get16`; none where the access is not wholly inside memory, which is the
provider's matter (R107). An 8-bit value is given as a number below 256. -/
def Memory.hostGet (m : Memory) (a : Nat) (w : Width) : Option Nat :=
  if m.inBounds a w then
    match w with
    | .w8 => some (m.byte a).toNat
    | .w16 => some (m.word a).toNat
  else none

/-- The provider's `set8` and `set16` (R107, R30). DESIGN CHOICE (log entry 24): a number too wide for the access
is stored modulo 256 or 65536; the spec gives unsigned 8-bit and 16-bit sets only, and leaves what a host
access does with another value to the provider (R111). -/
def Memory.hostSet (m : Memory) (a : Nat) (w : Width) (v : Nat) : Option Memory :=
  if m.inBounds a w then
    match w with
    | .w8 => some (m.setByte a (BitVec.ofNat 8 v))
    | .w16 => some (m.setWord a (BitVec.ofNat 16 v))
  else none

/-- The bytes of an image stored at ascending addresses from a base. DESIGN CHOICE (log entry 25): a byte that falls
outside memory is not stored; the spec's `M0` has exactly `MEM_SIZE` bytes (`00_scope.md` R5, decision D7), and
it gives a longer image no effect. -/
def Memory.load (m : Memory) (base : Nat) : List Byte → Memory
  | [] => m
  | b :: rest => Memory.load (if m.inBounds base .w8 then m.setByte base b else m) (base + 1) rest

/-- `M0` for an image that begins at address 0: the memory the loader leaves (`00_scope.md` R5). A shorter image
is filled up by log entry 2, a longer one is cut by log entry 25. -/
def Memory.ofImage (size : MemSize) (image : List Byte) : Memory := (Memory.blank size).load 0 image

/-- Code bytes stored where fetches read them: at an address and after it, each address modulo 65536 as
`ip` is (`10_state.md` R16); a byte outside memory is not stored. -/
def placeCode (m : Memory) (a : Word) : List Byte → Memory
  | [] => m
  | b :: rest => placeCode (if m.inBounds a.toNat .w8 then m.setByte a.toNat b else m) (a + 1) rest

end Sys2Proof.Machine
end

