-- ==== Sys2Proof/Machine/Step.lean ====
section
/-! DEFINITION. One step of the machine, one call of `Step()` (`00_scope.md` R8, `40_cycle.md` R70), and the
placing of one instruction where the next step fetches it. -/

namespace Sys2Proof.Machine

/-- `Step()` (R70). -/
def step (s : State) : Host.Outcome State Fault Refusal := fetchAndExecute s

/-- The state with the bytes of a table word, and zeros up to the longest instruction, stored at `ip`: the
loader's act of `70_reset_and_hazards.md` R143 for one instruction (log entry 8). -/
def State.withFetchWord (s : State) (nbits w : Nat) : State :=
  { s with mem := placeCode s.mem s.ip (tableWordBytes nbits w) }

end Sys2Proof.Machine
end

