-- ==== Sys2Proof/Machine/Listing.lean ====
section
/-! DEFINITION. The spec's own listing notation (`30_encoding.md` R62, decision D9) and the instruction
idioms of R63. Neither has an effect on the machine: a listing's bytes are authoritative, not its text. -/

namespace Sys2Proof.Machine

/-- One upper-case hexadecimal digit. -/
def hexDigit (n : Nat) : String :=
  if n < 10 then (Char.ofNat (48 + n)).toString else (Char.ofNat (55 + n)).toString

/-- The last `k` hexadecimal digits of a number. -/
def hexDigits : Nat → Nat → String
  | 0, _ => ""
  | k + 1, n => hexDigits k (n / 16) ++ hexDigit (n % 16)

/-- A 16-bit operand: `0x` and four digits (R62). -/
def listWord (w : Word) : String := "0x" ++ hexDigits 4 w.toNat

/-- A register operand: the register's name for a canonical byte, else the raw byte as `#0xNN` (R62). -/
def listRegister (b : Byte) : String :=
  if canonicalByte b then (regOf b).name else "#0x" ++ hexDigits 2 b.toNat

/-- The operands of an instruction in fetch order (R62). -/
def listOperands : Instr → String
  | .movLitReg lit rb => listWord lit ++ ", " ++ listRegister rb
  | .movRegReg fb tb => listRegister fb ++ ", " ++ listRegister tb
  | .movRegMem fb addr => listRegister fb ++ ", " ++ listWord addr
  | .movMemReg addr tb => listWord addr ++ ", " ++ listRegister tb
  | .addRegReg b1 b2 => listRegister b1 ++ ", " ++ listRegister b2
  | .jmpNotEql val tgt => listWord val ++ ", " ++ listWord tgt

/-- An instruction in the listing syntax (R62). -/
def listInstr (i : Instr) : String := i.opcode.mnemonic ++ " " ++ listOperands i

/-- A listing line: the address, the bytes and the text (R62). -/
def listLine (addr : Word) (i : Instr) : String :=
  hexDigits 4 addr.toNat ++ ":" ++
    String.join ((encode i).map (fun b => " " ++ hexDigits 2 b.toNat)) ++ "   " ++ listInstr i

/-! ### Idioms (R63) -/

/-- Unconditional jump: `MOV_LIT_REG T, ip`. -/
def idiomJump (target : Word) : Instr := .movLitReg target RegName.ip.byte

/-- Indirect jump through a register: `MOV_REG_REG r, ip`. -/
def idiomJumpRegister (r : RegName) : Instr := .movRegReg r.byte RegName.ip.byte

/-- Indirect jump through memory: `MOV_MEM_REG A, ip`. -/
def idiomJumpMemory (addr : Word) : Instr := .movMemReg addr RegName.ip.byte

/-- The address of the next instruction into a register: `MOV_REG_REG ip, r`. -/
def idiomNextAddress (r : RegName) : Instr := .movRegReg RegName.ip.byte r.byte

/-- No operation of three bytes: `MOV_REG_REG r1, r1`. -/
def idiomNop : Instr := .movRegReg RegName.r1.byte RegName.r1.byte

end Sys2Proof.Machine
end

