-- ==== Sys2Proof/Machine/HostPort.lean ====
section
/-! DEFINITION. What the host can do to the core, as transactions between steps (`44_host_interface.md` R100
to R111): construction and reset, the register port by name, one step, and memory through its provider;
the state a fault leaves to the next request (`60_exceptions.md` R127); boot and a run under a driver's stop
rule (`70_reset_and_hazards.md` R143, R145). -/

namespace Sys2Proof.Machine

/-! ### The register port (R102 to R105) -/

/-- `getRegister(name)` (R102). -/
def getRegister (name : String) (s : State) : Except Fault Word :=
  match RegName.ofName name with
  | some n => .ok (s.reg n)
  | none => raise (.unknownRegister name) s

/-- `setRegister(name, value)`: writes `value mod 65536` and returns the value now stored (R103). -/
def setRegister (name : String) (value : Nat) (s : State) : Except Fault (Word × State) :=
  match RegName.ofName name with
  | some n => .ok ((s.setReg n value).reg n, s.setReg n value)
  | none => raise (.unknownRegister name) s

/-- The reset input has exactly the effect of construction over the memory the core has
(`70_reset_and_hazards.md` R140, decision D6, log entry 10). -/
def resetInput (s : State) : State := State.construct s.mem

/-! ### The transactions of R111 -/

/-- What the host may ask for, one at a time and never while a step runs (R100, R106, R108). -/
inductive HostRequest where
  /-- Construct the core over a memory of `size` bytes that holds `image` from address 0 (R101); the bytes of an
  image longer than memory that fall outside it are dropped (DESIGN CHOICE, log entry 25). -/
  | construct (size : Nat) (image : List Byte)
  /-- The reset input (decision D6). -/
  | reset
  | step
  | getRegister (name : String)
  | setRegister (name : String) (value : Nat)
  | memoryGet (addr : Nat) (width : Width)
  | memorySet (addr : Nat) (width : Width) (value : Nat)
deriving DecidableEq, Repr

/-- The state after a request that completes, and the value it returns where it returns one. -/
structure HostReply where
  state : State
  value : Option Nat
deriving DecidableEq, Repr

/-- A step's outcome as a reply to the host. -/
def stepReply : Host.Outcome State Fault Refusal → Host.Outcome HostReply Fault Refusal
  | .next t => .next ⟨t, none⟩
  | .fault f => .fault f
  | .refused r => .refused r

/-- One transaction (R111). A host access to memory outside its bounds is refused: it is the provider's
matter (R107, log entry 12). A value too wide for a host write is reduced (log entry 24). A construction over a
size no instance has is refused (decision D2). -/
def serve (q : HostRequest) (s : State) : Host.Outcome HostReply Fault Refusal :=
  match q with
  | .construct size image =>
    if h : 1 ≤ size ∧ size ≤ Config.maxMemSize then
      .next ⟨State.construct (Memory.ofImage ⟨size, h.1, h.2⟩ image), none⟩
    else .refused (.memorySize size)
  | .reset => .next ⟨resetInput s, none⟩
  | .step => stepReply (step s)
  | .getRegister name =>
    match getRegister name s with
    | .ok v => .next ⟨s, some v.toNat⟩
    | .error f => .fault f
  | .setRegister name value =>
    match setRegister name value s with
    | .ok (v, t) => .next ⟨t, some v.toNat⟩
    | .error f => .fault f
  | .memoryGet addr width =>
    match s.mem.hostGet addr width with
    | some v => .next ⟨s, some v⟩
    | none => .refused (.providerAccess addr width .read)
  | .memorySet addr width value =>
    match s.mem.hostSet addr width value with
    | some m => .next ⟨{ s with mem := m }, none⟩
    | none => .refused (.providerAccess addr width .write)

/-! ### Going on after a fault (`60_exceptions.md` R121, R127) -/

/-- The state a fault leaves (R126). -/
def Fault.left : Fault → State
  | .unknownInstruction _ t => t
  | .unknownRegister _ t => t
  | .boundsViolation _ _ _ t => t

/-- The number of a fault's kind, where a number is needed (R122, decision D5); no state holds it. -/
def Fault.code : Fault → Nat
  | .unknownInstruction _ _ => 1
  | .unknownRegister _ _ => 2
  | .boundsViolation _ _ _ _ => 3

/-- The state the core is in after a step: after a fault, the state the fault leaves, from which the core
accepts the next request (R127). A refusal changes nothing. -/
def stateAfterStep (s : State) : State :=
  match step s with
  | .next t => t
  | .fault f => f.left
  | .refused _ => s

/-- The state after `k` requested steps by a driver that does not stop at faults (R127). -/
def stateAfterSteps : Nat → State → State
  | 0, s => s
  | k + 1, s => stateAfterSteps k (stateAfterStep s)

/-- The state after one request of any kind. -/
def stateAfterRequest (q : HostRequest) (s : State) : State :=
  match serve q s with
  | .next r => r.state
  | .fault f => f.left
  | .refused _ => s

/-- The state after a list of requests, in order (R43, R106). -/
def stateAfterRequests : List HostRequest → State → State
  | [], s => s
  | q :: rest, s => stateAfterRequests rest (stateAfterRequest q s)

/-! ### Boot and a run (`70_reset_and_hazards.md` R143, R145) -/

/-- Steps 1 to 4 of R143: a memory with its image, the core constructed over it, `ip` at the entry. -/
def boot (m : Memory) (entry : Nat) : State := (State.construct m).setReg .ip entry

/-- How a run under a driver ends (decision D8). -/
inductive RunEnd where
  | stopped (s : State)
  | faulted (f : Fault)
  | refused (r : Refusal)
  | outOfFuel (s : State)
deriving DecidableEq, Repr

/-- A run by a driver with a stop rule on states and a budget of steps, ended by the first fault: the stop
rule is a parameter of the run, not of the hardware (R145, decisions D4, D8). -/
def runUntil (stop : State → Bool) : Nat → State → RunEnd
  | 0, s => if stop s then .stopped s else .outOfFuel s
  | fuel + 1, s =>
    if stop s then .stopped s
    else
      match step s with
      | .next t => runUntil stop fuel t
      | .fault f => .faulted f
      | .refused r => .refused r

end Sys2Proof.Machine
end

