-- ==== Sys2Proof/Machine/Trace.lean ====
section
/-! DEFINITION. The memory transactions of a step, in order (`20_memory.md` R38), as a list beside the step:
the state itself has no place for them (`10_state.md` R10). -/

namespace Sys2Proof.Machine

/-- One transaction: its direction, the address of its first byte, its width, and the value it moved; none
where it raised `BoundsViolation` and moved no byte (R35). -/
structure Access where
  kind  : AccessKind
  addr  : Word
  width : Width
  value : Option Nat
deriving DecidableEq, Repr

/-- `MemRead(addr, n)` as a transaction (R33). -/
def Access.ofRead (m : Memory) (addr : Word) : Width → Access
  | .w8 => ⟨.read, addr, .w8, if m.inBounds addr.toNat .w8 then some (m.byte addr.toNat).toNat else none⟩
  | .w16 => ⟨.read, addr, .w16, if m.inBounds addr.toNat .w16 then some (m.word addr.toNat).toNat else none⟩

/-- `MemWrite(addr, 2, v)` as a transaction (R34). -/
def Access.ofWrite (m : Memory) (addr : Word) (v : Word) : Access :=
  ⟨.write, addr, .w16, if m.inBounds addr.toNat .w16 then some v.toNat else none⟩

/-- The transaction moved its bytes. -/
def Access.done (x : Access) : Bool := x.value.isSome

/-- The operand fetches from an address on, ending at the first that leaves memory (R38). -/
def operandAccesses (m : Memory) (a : Word) : List Width → List Access
  | [] => []
  | w :: rest =>
    let x := Access.ofRead m a w
    x :: if x.done then operandAccesses m (a + BitVec.ofNat 16 w.bytes) rest else []

/-- The data access of an instruction's effect (`20_memory.md` R37), from the state after its fetches. -/
def dataAccesses (i : Instr) (s : State) : List Access :=
  match i with
  | .movRegMem fb addr => [Access.ofWrite s.mem addr (readOperand fb s)]
  | .movMemReg addr _ => [Access.ofRead s.mem addr .w16]
  | .movLitReg _ _ => []
  | .movRegReg _ _ => []
  | .addRegReg _ _ => []
  | .jmpNotEql _ _ => []

/-- All transactions of one step, in order (R38). -/
def stepAccesses (s : State) : List Access :=
  Access.ofRead s.mem s.ip .w8 ::
    match fetch8 s with
    | .error _ => []
    | .ok (op, t) =>
      match Opcode.ofByte op with
      | none => []
      | some o =>
        operandAccesses t.mem t.ip o.format.widths ++
          match fetchInstr op t with
          | .error _ => []
          | .ok (i, u) => dataAccesses i u

/-- What one transaction does to main memory: a write that moved its bytes stores them, and nothing else
changes memory (R34, R40). -/
def Access.applyTo (m : Memory) (x : Access) : Memory :=
  match x.kind, x.width, x.value with
  | .write, .w16, some v => m.setWord x.addr.toNat (BitVec.ofNat 16 v)
  | .write, .w8, some v => m.setByte x.addr.toNat (BitVec.ofNat 8 v)
  | _, _, _ => m

end Sys2Proof.Machine
end

