-- ==== Sys2Proof/Safety.lean ====
section
/-! DEFINITION. The terms in which claims speak: where an instruction stands ready to be fetched, what a
state's observable contents are, the invariant, and what counts as a safe run. -/

namespace Sys2Proof.Machine

/-- The next state of an outcome, where there is one. -/
def nextOf : Host.Outcome State Fault Refusal → Option State
  | .next t => some t
  | .fault _ => none
  | .refused _ => none

/-- The fault of an outcome, where there is one. -/
def faultOf : Host.Outcome State Fault Refusal → Option Fault
  | .next _ => none
  | .fault f => some f
  | .refused _ => none

/-- The invariant of the machine: memory is in its canonical form, so every listed byte is inside memory.
The registers need none: every 16-bit value is legal in each (`10_state.md` R11, R15). -/
abbrev State.inv (s : State) : Prop := s.mem.wf

/-- `MEM_SIZE` of a state. -/
def State.size (s : State) : Nat := s.mem.size.val

/-- `M[a]` at a 16-bit address. -/
def State.byteAt (s : State) (a : Word) : Byte := s.mem.byte a.toNat

/-- The word of the two bytes at an address and at the next 16-bit address, by concatenation: `a ∥ b`
(`00_scope.md` R6). -/
def State.wordAt (s : State) (a : Word) : Word := s.byteAt a ++ s.byteAt (a + 1)

/-- `v[15:8]` (`00_scope.md` R6). -/
def bits15to8 (v : Word) : Byte := v.extractLsb' 8 8

/-- `v[7:0]` (`00_scope.md` R6). -/
def bits7to0 (v : Word) : Byte := v.extractLsb' 0 8

/-- The state with `ip` at an address. -/
def State.atIp (s : State) (a : Word) : State := s.setReg .ip a.toNat

/-- The bytes at an address and after it, each address modulo 65536 as `ip` is. -/
def State.bytesFrom (s : State) : Nat → Word → List Byte
  | 0, _ => []
  | k + 1, a => s.byteAt a :: s.bytesFrom k (a + 1)

/-- Every operand of the given widths, fetched from an address on, is inside memory (`20_memory.md` R35). -/
def State.operandsInBounds (s : State) (a : Word) : List Width → Bool
  | [] => true
  | w :: rest =>
    decide (a.toNat + w.bytes ≤ s.size) && s.operandsInBounds (a + BitVec.ofNat 16 w.bytes) rest

/-- The opcode byte at `ip` and every operand of an opcode are inside memory, so that no fetch faults. -/
def State.fetchable (s : State) (o : Opcode) : Bool :=
  s.operandsInBounds s.ip (.w8 :: o.format.widths)

/-- The bytes of an instruction stand at `ip`, and every fetch of it is inside memory. -/
def State.codeAtIp (s : State) (i : Instr) : Prop :=
  s.fetchable i.opcode = true ∧ s.bytesFrom i.length s.ip = encode i

/-- Two states no operation can tell apart: the same registers, the same size and the same bytes. -/
def State.sameContents (s t : State) : Prop :=
  s.regs = t.regs ∧ s.mem.size = t.mem.size ∧ ∀ a, a < s.size → s.mem.byte a = t.mem.byte a

/-- `t` agrees with `s` on every register outside a list. -/
def State.regsKeptBut (s t : State) (changed : List RegName) : Prop :=
  ∀ n, n ∉ changed → t.reg n = s.reg n

/-- `t` has the memory of `s`: the same size and every byte as before. -/
def State.memoryKept (s t : State) : Prop :=
  t.mem.size = s.mem.size ∧ ∀ a, t.mem.byte a = s.mem.byte a

/-- `t` has the memory of `s` outside the two bytes of a 16-bit store at an address. -/
def State.memoryKeptBut16 (s t : State) (addr : Word) : Prop :=
  t.mem.size = s.mem.size ∧
  ∀ a, a ≠ addr.toNat → a ≠ addr.toNat + 1 → t.mem.byte a = s.mem.byte a

/-- Two outcomes no observer can tell apart: both complete, or both stop for the same reason with the same
payload, in states with the same contents. -/
def outcomesAgree : Host.Outcome State Fault Refusal → Host.Outcome State Fault Refusal → Prop
  | .next s, .next t => s.sameContents t
  | .fault (.unknownInstruction op s), .fault (.unknownInstruction op' t) => op = op' ∧ s.sameContents t
  | .fault (.unknownRegister n s), .fault (.unknownRegister n' t) => n = n' ∧ s.sameContents t
  | .fault (.boundsViolation a w k s), .fault (.boundsViolation a' w' k' t) =>
    a = a' ∧ w = w' ∧ k = k' ∧ s.sameContents t
  | .refused r, .refused r' => r = r'
  | _, _ => False

/-- A run of `k` steps is safe when no step of it faults or is refused. -/
def safeRun : Nat → State → Prop
  | 0, _ => True
  | k + 1, s => ∃ t, step s = .next t ∧ safeRun k t

end Sys2Proof.Machine
end

