-- ==== Sys2Proof/Certificates/Slice0/Obligations.lean ====
section
/-! DEFINITION. The statements about the machine for the provers. Each docstring names the rule of `spec/` it
formalises, and where a clause rests on a decision or a derivation the spec marks as its own, or on an entry
of the model's assumption log, says so. -/

open Sys2Proof Sys2Proof.Machine

/-! ### Encoding (`30_encoding.md`) -/

/-- The six listing rows of R62, each byte written out from the formats of R52, decode to the instruction of
the row and leave nothing over. -/
def Obligations.ListingRowsDecode : Prop :=
  decode [0x10, 0x12, 0x34, 0x02] = .instr (.movLitReg 0x1234 0x02) [] ∧
  decode [0x11, 0x02, 0x03] = .instr (.movRegReg 0x02 0x03) [] ∧
  decode [0x12, 0x01, 0x01, 0x00] = .instr (.movRegMem 0x01 0x0100) [] ∧
  decode [0x13, 0x01, 0x00, 0x04] = .instr (.movMemReg 0x0100 0x04) [] ∧
  decode [0x14, 0x02, 0x03] = .instr (.addRegReg 0x02 0x03) [] ∧
  decode [0x15, 0x00, 0x0A, 0x00, 0x00] = .instr (.jmpNotEql 0x000A 0x0000) []

/-- R53: the opcode byte selects the instruction by its whole value, and the operands follow in fetch order,
16-bit operands with the byte at the lower address first; every other byte is invalid. -/
def Obligations.OpcodeByteSelectsInstruction : Prop :=
  ∀ (b1 b2 b3 b4 : Byte) (rest : List Byte),
    decode (0x10 :: b1 :: b2 :: b3 :: rest) = .instr (.movLitReg (b1 ++ b2) b3) rest ∧
    decode (0x11 :: b1 :: b2 :: rest) = .instr (.movRegReg b1 b2) rest ∧
    decode (0x12 :: b1 :: b2 :: b3 :: rest) = .instr (.movRegMem b1 (b2 ++ b3)) rest ∧
    decode (0x13 :: b1 :: b2 :: b3 :: rest) = .instr (.movMemReg (b1 ++ b2) b3) rest ∧
    decode (0x14 :: b1 :: b2 :: rest) = .instr (.addRegReg b1 b2) rest ∧
    decode (0x15 :: b1 :: b2 :: b3 :: b4 :: rest) = .instr (.jmpNotEql (b1 ++ b2) (b3 ++ b4)) rest ∧
    ∀ op : Byte, op.toNat < 0x10 ∨ 0x15 < op.toNat → decode (op :: rest) = .unknownInstruction op

/-- Decode and encode agree: every instruction, with every operand at every value, is read back from its
bytes, whatever follows them. Derived from the encoding tables of R52 and R53. -/
def Obligations.DecodeReadsBackEncode : Prop :=
  ∀ (i : Instr) (rest : List Byte), i.wellFormed = true → decode (encode i ++ rest) = .instr i rest

/-- The other direction: bytes that decode are the encoding of what they decode to, so that no two byte
strings stand for one instruction. Derived from R52, R53 and R59. -/
def Obligations.DecodedBytesAreTheEncoding : Prop :=
  ∀ (bytes rest : List Byte) (i : Instr), decode bytes = .instr i rest → bytes = encode i ++ rest

/-- Decoding is total, and never rejects an instruction for its operand bits: on five bytes or more the first
byte alone decides between an instruction of its own row, with the row's length, and `UnknownInstruction`. Derived from
R51, R59 and R60, which the spec marks as derived. -/
def Obligations.DecodingIsTotalByOpcode : Prop :=
  ∀ (op b1 b2 b3 b4 : Byte) (rest : List Byte),
    (∃ i tail, decode (op :: b1 :: b2 :: b3 :: b4 :: rest) = .instr i tail ∧
      0x10 ≤ op.toNat ∧ op.toNat ≤ 0x15 ∧ i.opcode.byte = op ∧
      i.length = (if op = 0x11 ∨ op = 0x14 then 3 else if op = 0x15 then 5 else 4) ∧
      (op :: b1 :: b2 :: b3 :: b4 :: rest).drop i.length = tail) ∨
    (decode (op :: b1 :: b2 :: b3 :: b4 :: rest) = .unknownInstruction op ∧
      (op.toNat < 0x10 ∨ 0x15 < op.toNat))

/-- R56: a register byte selects the register whose number is the byte modulo 10, its bank offset twice that, at
every register operand of the five instructions that have one. No register byte is invalid and none raises a
fault: with any byte the three instructions without a data access complete, the store and the load complete
where their two bytes are inside memory, a fault of either is the same fault whatever the byte, and none is
`UnknownRegister`. -/
def Obligations.RegisterByteIsReducedModuloTen : Prop :=
  (∀ b : Byte, (regOf b).number = b.toNat % 10 ∧ (regOf b).bankOffset = b.toNat % 10 * 2) ∧
  (∀ (b b' c : Byte) (w : Word) (s : State), b.toNat % 10 = b'.toNat % 10 →
    exec (.movLitReg w b) s = exec (.movLitReg w b') s ∧
    exec (.movRegReg b c) s = exec (.movRegReg b' c) s ∧
    exec (.movRegReg c b) s = exec (.movRegReg c b') s ∧
    exec (.movRegMem b w) s = exec (.movRegMem b' w) s ∧
    exec (.movMemReg w b) s = exec (.movMemReg w b') s ∧
    exec (.addRegReg b c) s = exec (.addRegReg b' c) s ∧
    exec (.addRegReg c b) s = exec (.addRegReg c b') s) ∧
  (∀ (b c : Byte) (w : Word) (s : State),
    (∃ t, exec (.movLitReg w b) s = .next t) ∧ (∃ t, exec (.movRegReg b c) s = .next t) ∧
    (∃ t, exec (.addRegReg b c) s = .next t) ∧
    (w.toNat + 2 ≤ s.size → ∃ t, exec (.movRegMem b w) s = .next t) ∧
    (w.toNat + 2 ≤ s.size → ∃ t, exec (.movMemReg w b) s = .next t) ∧
    (∀ f, exec (.movRegMem b w) s = .fault f → exec (.movRegMem c w) s = .fault f) ∧
    ∀ f, exec (.movMemReg w b) s = .fault f → exec (.movMemReg w c) s = .fault f) ∧
  ∀ (i : Instr) (s t : State) (name : String), exec i s ≠ .fault (.unknownRegister name t)

/-! ### Memory (`20_memory.md`) -/

/-- R31: every 16-bit access is big-endian, the data load and store and the fetch of a 16-bit operand
alike: `M[a]` is bits 15:8 and `M[a + 1]` is bits 7:0. The premise keeps the access inside memory. -/
def Obligations.SixteenBitAccessIsBigEndian : Prop :=
  (∀ (s : State) (a : Word), a.toNat + 2 ≤ s.size → memRead16 a s = .ok (s.wordAt a)) ∧
  (∀ (s : State) (a v : Word), a.toNat + 2 ≤ s.size →
    ∃ t, memWrite16 a v s = .ok t ∧ t.byteAt a = bits15to8 v ∧ t.byteAt (a + 1) = bits7to0 v) ∧
  ∀ s : State, s.ip.toNat + 2 ≤ s.size → ∃ t, fetch16 s = .ok (s.wordAt s.ip, t)

/-- Mixed widths: after a 16-bit store at `a`, 8-bit reads see its two bytes, and a second store at `a + 1`
overlaps the first in the byte `M[a + 1]` only. Derived from R32, which the spec marks as derived. -/
def Obligations.OverlappingStoresShareOneByte : Prop :=
  ∀ (s t u : State) (a v w : Word), memWrite16 a v s = .ok t → memWrite16 (a + 1) w t = .ok u →
    memRead8 a t = .ok (bits15to8 v) ∧ memRead8 (a + 1) t = .ok (bits7to0 v) ∧
    memRead8 a u = .ok (bits15to8 v) ∧ memRead8 (a + 1) u = .ok (bits15to8 w) ∧
    memRead8 (a + 2) u = .ok (bits7to0 w) ∧
    ∀ b : Word, b ≠ a → b ≠ a + 1 → b ≠ a + 2 → u.byteAt b = s.byteAt b

/-- An access completes exactly when it is wholly inside memory; else it faults with its own address, width
and direction and moves no byte. Derived: the fault is the spec's decision D3 (R33 to R35, log entry 3). -/
def Obligations.AccessOutsideMemoryMovesNothing : Prop :=
  ∀ (s : State) (a v : Word) (b : Byte),
    (a.toNat + 1 ≤ s.size → memRead8 a s = .ok (s.byteAt a) ∧
      ∃ t, memWrite8 a b s = .ok t ∧ t.byteAt a = b ∧ t.regs = s.regs ∧
        ∀ c : Word, c ≠ a → t.byteAt c = s.byteAt c) ∧
    (s.size < a.toNat + 1 → memRead8 a s = .error (.boundsViolation a .w8 .read s) ∧
      memWrite8 a b s = .error (.boundsViolation a .w8 .write s)) ∧
    (a.toNat + 2 ≤ s.size → (∃ w, memRead16 a s = .ok w) ∧
      ∃ t, memWrite16 a v s = .ok t ∧ t.regs = s.regs ∧
        ∀ c : Word, c ≠ a → c ≠ a + 1 → t.byteAt c = s.byteAt c) ∧
    (s.size < a.toNat + 2 → memRead16 a s = .error (.boundsViolation a .w16 .read s) ∧
      memWrite16 a v s = .error (.boundsViolation a .w16 .write s))

/-- The top of the address space, for every `MEM_SIZE`: a 16-bit access at `0xFFFF` always faults, from every
state, an operand fetch with `ip` there included, and an 8-bit fetch there, possible in a full memory only,
wraps `ip` to 0. Derived from R16 and R35 (decisions D2 and D3). -/
def Obligations.TopOfAddressSpace : Prop :=
  (∀ (s : State) (v : Word),
    memRead16 0xFFFF s = .error (.boundsViolation 0xFFFF .w16 .read s) ∧
    memWrite16 0xFFFF v s = .error (.boundsViolation 0xFFFF .w16 .write s)) ∧
  ∀ s : State, s.ip = 0xFFFF →
    fetch16 s = .error (.boundsViolation 0xFFFF .w16 .read s) ∧
    (s.size = 65536 → ∃ t, fetch8 s = .ok (s.byteAt 0xFFFF, t) ∧ t.ip = 0x0000) ∧
    (s.size < 65536 → fetch8 s = .error (.boundsViolation 0xFFFF .w8 .read s))

/-- The canonical form makes equal memories equal data: two memories of one size in the form that read alike
at every address are the same value. A property of the model's representation (log entry 2). -/
def Obligations.CanonicalMemoriesAreEqualData : Prop :=
  ∀ m m' : Memory, m.wf → m'.wf → m.size = m'.size → (∀ a, a < m.size.val → m.byte a = m'.byte a) → m = m'

/-! ### Fetch and step (`40_cycle.md`) -/

/-- `Fetch8` and `Fetch16` read at `ip` and only then advance it, modulo 65536, and change nothing else; a
fetch outside memory leaves the whole state as it was. Derived from R71 to R73 (the fault is decision D3). -/
def Obligations.FetchReadsThenAdvances : Prop :=
  ∀ s : State,
    (s.ip.toNat + 1 ≤ s.size → ∃ t, fetch8 s = .ok (s.byteAt s.ip, t) ∧ t.ip = s.ip + 1 ∧
      s.regsKeptBut t [.ip] ∧ s.memoryKept t) ∧
    (s.size < s.ip.toNat + 1 → fetch8 s = .error (.boundsViolation s.ip .w8 .read s)) ∧
    (s.ip.toNat + 2 ≤ s.size → ∃ t, fetch16 s = .ok (s.wordAt s.ip, t) ∧ t.ip = s.ip + 2 ∧
      s.regsKeptBut t [.ip] ∧ s.memoryKept t) ∧
    (s.size < s.ip.toNat + 2 → fetch16 s = .error (.boundsViolation s.ip .w16 .read s))

/-- A step runs the decoded instruction: when the bytes at `ip` decode to a well-formed instruction and every
fetch of it is inside memory, the step is the instruction's effect on the state in which `ip` has moved past
it. Derived from R70 and R74 (log entry 5 for the state an effect starts from). -/
def Obligations.StepRunsTheDecodedInstruction : Prop :=
  ∀ (s : State) (i : Instr) (rest : List Byte),
    decode (s.bytesFrom 5 s.ip) = .instr i rest → i.wellFormed = true → s.fetchable i.opcode = true →
    step s = exec i (s.atIp (s.ip + BitVec.ofNat 16 i.length))

/-- The same by the encoder: where the bytes of an instruction stand at `ip`, the step runs it. Derived from
R50, R70 and R74. -/
def Obligations.StepRunsTheEncodedInstruction : Prop :=
  ∀ (s : State) (i : Instr), s.codeAtIp i → step s = exec i (s.atIp (s.ip + BitVec.ofNat 16 i.length))

/-- A step on an opcode byte outside `0x10 .. 0x15` fails with `UnknownInstruction` carrying the byte; no operand
is fetched, and `ip` alone has changed, past the opcode byte. Derived from R58, with the state left from R123
and R126, which the spec marks as derived (log entry 4). -/
def Obligations.InvalidOpcodeFaultsPastItsByte : Prop :=
  ∀ s : State, s.ip.toNat + 1 ≤ s.size →
    (s.byteAt s.ip).toNat < 0x10 ∨ 0x15 < (s.byteAt s.ip).toNat →
    stepAccesses s = [⟨.read, s.ip, .w8, some (s.byteAt s.ip).toNat⟩] ∧
    ∃ t, step s = .fault (.unknownInstruction (s.byteAt s.ip) t) ∧ t.ip = s.ip + 1 ∧
      s.regsKeptBut t [.ip] ∧ s.memoryKept t

/-- A step on `MOV_LIT_REG` on every path: both operand fetches can leave memory, else the literal arrives
unchanged in the register and every other register but `ip` and all of memory are kept. Derived from
`41_mov.md` R80, with the fault of decision D3 and its state from R126. -/
def Obligations.StepMovLitReg : Prop :=
  ∀ (s : State) (a : Word), s.ip = a → a.toNat + 1 ≤ s.size → s.byteAt a = 0x10 →
    (s.size < (a + 1).toNat + 2 →
      step s = .fault (.boundsViolation (a + 1) .w16 .read (s.atIp (a + 1)))) ∧
    ((a + 1).toNat + 2 ≤ s.size → s.size < (a + 3).toNat + 1 →
      step s = .fault (.boundsViolation (a + 3) .w8 .read (s.atIp (a + 3)))) ∧
    ((a + 1).toNat + 2 ≤ s.size → (a + 3).toNat + 1 ≤ s.size →
      ∃ t, step s = .next t ∧
        t.reg (regOf (s.byteAt (a + 3))) = s.wordAt (a + 1) ∧
        (regOf (s.byteAt (a + 3)) ≠ .ip → t.ip = a + 4) ∧
        s.regsKeptBut t [.ip, regOf (s.byteAt (a + 3))] ∧ s.memoryKept t)

/-- A step on `MOV_REG_REG` on every path; the source is read after both fetches, so `ip` as a source is the
address of the next instruction. Derived from `41_mov.md` R81, R17 and R126 (fault: decision D3). -/
def Obligations.StepMovRegReg : Prop :=
  ∀ (s : State) (a : Word), s.ip = a → a.toNat + 1 ≤ s.size → s.byteAt a = 0x11 →
    (s.size < (a + 1).toNat + 1 →
      step s = .fault (.boundsViolation (a + 1) .w8 .read (s.atIp (a + 1)))) ∧
    ((a + 1).toNat + 1 ≤ s.size → s.size < (a + 2).toNat + 1 →
      step s = .fault (.boundsViolation (a + 2) .w8 .read (s.atIp (a + 2)))) ∧
    ((a + 1).toNat + 1 ≤ s.size → (a + 2).toNat + 1 ≤ s.size →
      ∃ t, step s = .next t ∧
        t.reg (regOf (s.byteAt (a + 2))) =
          (if regOf (s.byteAt (a + 1)) = .ip then a + 3 else s.reg (regOf (s.byteAt (a + 1)))) ∧
        (regOf (s.byteAt (a + 2)) ≠ .ip → t.ip = a + 3) ∧
        s.regsKeptBut t [.ip, regOf (s.byteAt (a + 2))] ∧ s.memoryKept t)

/-- A step on `MOV_REG_MEM` on every path; the address stored to is the operand, and a store that leaves
memory writes neither byte. Derived from `41_mov.md` R82, R17 and R126 (fault: decision D3). -/
def Obligations.StepMovRegMem : Prop :=
  ∀ (s : State) (a addr : Word), s.ip = a → a.toNat + 1 ≤ s.size → s.byteAt a = 0x12 →
    s.wordAt (a + 2) = addr →
    (s.size < (a + 1).toNat + 1 →
      step s = .fault (.boundsViolation (a + 1) .w8 .read (s.atIp (a + 1)))) ∧
    ((a + 1).toNat + 1 ≤ s.size → s.size < (a + 2).toNat + 2 →
      step s = .fault (.boundsViolation (a + 2) .w16 .read (s.atIp (a + 2)))) ∧
    ((a + 1).toNat + 1 ≤ s.size → (a + 2).toNat + 2 ≤ s.size → s.size < addr.toNat + 2 →
      step s = .fault (.boundsViolation addr .w16 .write (s.atIp (a + 4)))) ∧
    ((a + 1).toNat + 1 ≤ s.size → (a + 2).toNat + 2 ≤ s.size → addr.toNat + 2 ≤ s.size →
      ∃ t, step s = .next t ∧
        t.wordAt addr =
          (if regOf (s.byteAt (a + 1)) = .ip then a + 4 else s.reg (regOf (s.byteAt (a + 1)))) ∧
        t.ip = a + 4 ∧ s.regsKeptBut t [.ip] ∧ s.memoryKeptBut16 t addr)

/-- A step on `MOV_MEM_REG` on every path; a load that leaves memory writes no register but leaves `ip` past
the instruction. Derived from `41_mov.md` R83 and R126 (fault: decision D3). -/
def Obligations.StepMovMemReg : Prop :=
  ∀ (s : State) (a addr : Word), s.ip = a → a.toNat + 1 ≤ s.size → s.byteAt a = 0x13 →
    s.wordAt (a + 1) = addr →
    (s.size < (a + 1).toNat + 2 →
      step s = .fault (.boundsViolation (a + 1) .w16 .read (s.atIp (a + 1)))) ∧
    ((a + 1).toNat + 2 ≤ s.size → s.size < (a + 3).toNat + 1 →
      step s = .fault (.boundsViolation (a + 3) .w8 .read (s.atIp (a + 3)))) ∧
    ((a + 1).toNat + 2 ≤ s.size → (a + 3).toNat + 1 ≤ s.size → s.size < addr.toNat + 2 →
      step s = .fault (.boundsViolation addr .w16 .read (s.atIp (a + 4)))) ∧
    ((a + 1).toNat + 2 ≤ s.size → (a + 3).toNat + 1 ≤ s.size → addr.toNat + 2 ≤ s.size →
      ∃ t, step s = .next t ∧
        t.reg (regOf (s.byteAt (a + 3))) = s.wordAt addr ∧
        (regOf (s.byteAt (a + 3)) ≠ .ip → t.ip = a + 4) ∧
        s.regsKeptBut t [.ip, regOf (s.byteAt (a + 3))] ∧ s.memoryKept t)

/-- A step on `ADD_REG_REG` on every path: the sum modulo 65536 goes to `acc`, whatever the operands name,
and `ip` as an addend is the address of the next instruction. Derived from `42_add.md` R90, R17 and R126
(fault: decision D3). -/
def Obligations.StepAddRegReg : Prop :=
  ∀ (s : State) (a : Word), s.ip = a → a.toNat + 1 ≤ s.size → s.byteAt a = 0x14 →
    (s.size < (a + 1).toNat + 1 →
      step s = .fault (.boundsViolation (a + 1) .w8 .read (s.atIp (a + 1)))) ∧
    ((a + 1).toNat + 1 ≤ s.size → s.size < (a + 2).toNat + 1 →
      step s = .fault (.boundsViolation (a + 2) .w8 .read (s.atIp (a + 2)))) ∧
    ((a + 1).toNat + 1 ≤ s.size → (a + 2).toNat + 1 ≤ s.size →
      ∃ t, step s = .next t ∧
        (t.reg .acc).toNat =
          ((if regOf (s.byteAt (a + 1)) = .ip then a + 3 else s.reg (regOf (s.byteAt (a + 1)))).toNat +
            (if regOf (s.byteAt (a + 2)) = .ip then a + 3 else s.reg (regOf (s.byteAt (a + 2)))).toNat) %
            65536 ∧
        t.ip = a + 3 ∧ s.regsKeptBut t [.ip, .acc] ∧ s.memoryKept t)

/-- A step on `JMP_NOT_EQL` on every path: both operands are consumed whether or not the jump is taken, it is
taken exactly when the value differs from `acc`, and nothing but `ip` changes. Derived from `43_jmp.md` R95
and R126 (fault: decision D3). -/
def Obligations.StepJmpNotEql : Prop :=
  ∀ (s : State) (a : Word), s.ip = a → a.toNat + 1 ≤ s.size → s.byteAt a = 0x15 →
    (s.size < (a + 1).toNat + 2 →
      step s = .fault (.boundsViolation (a + 1) .w16 .read (s.atIp (a + 1)))) ∧
    ((a + 1).toNat + 2 ≤ s.size → s.size < (a + 3).toNat + 2 →
      step s = .fault (.boundsViolation (a + 3) .w16 .read (s.atIp (a + 3)))) ∧
    ((a + 1).toNat + 2 ≤ s.size → (a + 3).toNat + 2 ≤ s.size →
      ∃ t, step s = .next t ∧
        (s.wordAt (a + 1) ≠ s.reg .acc → t.ip = s.wordAt (a + 3)) ∧
        (s.wordAt (a + 1) = s.reg .acc → t.ip = a + 5) ∧
        s.regsKeptBut t [.ip] ∧ s.memoryKept t)

/-! ### The effects, from every state: completion, result and frame -/

/-- The two moves into a register that touch no memory complete from every state: the 16-bit value arrives
unchanged in the register the byte selects, `ip` included, and every other register and every byte of memory
is kept. Derived from the effects of `41_mov.md` R80, R81 and R84 (log entry 5). -/
def Obligations.RegisterMovesComplete : Prop :=
  (∀ (s : State) (lit : Word) (rb : Byte),
    ∃ t, exec (.movLitReg lit rb) s = .next t ∧ t.reg (regOf rb) = lit ∧
      s.regsKeptBut t [regOf rb] ∧ s.memoryKept t) ∧
  ∀ (s : State) (fb tb : Byte),
    ∃ t, exec (.movRegReg fb tb) s = .next t ∧ t.reg (regOf tb) = s.reg (regOf fb) ∧
      s.regsKeptBut t [regOf tb] ∧ s.memoryKept t

/-- A store completes when its two bytes are inside memory: they hold the source register, high byte first,
no register changes and every byte outside the two is kept. Outside memory it faults and changes nothing.
Derived from the effect of `41_mov.md` R82 (log entry 5; fault: decision D3). -/
def Obligations.StoreCompletes : Prop :=
  ∀ (s : State) (fb : Byte) (addr : Word),
    (addr.toNat + 2 ≤ s.size →
      ∃ t, exec (.movRegMem fb addr) s = .next t ∧
        t.byteAt addr = bits15to8 (s.reg (regOf fb)) ∧
        t.byteAt (addr + 1) = bits7to0 (s.reg (regOf fb)) ∧
        s.regsKeptBut t [] ∧ s.memoryKeptBut16 t addr) ∧
    (s.size < addr.toNat + 2 →
      exec (.movRegMem fb addr) s = .fault (.boundsViolation addr .w16 .write s))

/-- A load completes when its two bytes are inside memory: the register holds them, the byte at the lower
address as the high byte, and every other register and every byte of memory is kept. Outside memory it
faults and changes nothing. Derived from the effect of `41_mov.md` R83 (log entry 5; fault: decision D3). -/
def Obligations.LoadCompletes : Prop :=
  ∀ (s : State) (addr : Word) (tb : Byte),
    (addr.toNat + 2 ≤ s.size →
      ∃ t, exec (.movMemReg addr tb) s = .next t ∧
        t.reg (regOf tb) = s.byteAt addr ++ s.byteAt (addr + 1) ∧
        s.regsKeptBut t [regOf tb] ∧ s.memoryKept t) ∧
    (s.size < addr.toNat + 2 →
      exec (.movMemReg addr tb) s = .fault (.boundsViolation addr .w16 .read s))

/-- An addition completes from every state, overflow included: `acc` holds the sum modulo 65536, which is also
the two's-complement sum with wrap, the order of the operands does not matter, and every other register and
every byte of memory is kept. Derived from `42_add.md` R90 and R91 (R91 is marked as derived; log entry 5). -/
def Obligations.AddCompletes : Prop :=
  ∀ (s : State) (b1 b2 : Byte),
    exec (.addRegReg b1 b2) s = exec (.addRegReg b2 b1) s ∧
    ∃ t, exec (.addRegReg b1 b2) s = .next t ∧
      (t.reg .acc).toNat = ((s.reg (regOf b1)).toNat + (s.reg (regOf b2)).toNat) % 65536 ∧
      (t.reg .acc).toInt = ((s.reg (regOf b1)).toInt + (s.reg (regOf b2)).toInt).bmod 65536 ∧
      s.regsKeptBut t [.acc] ∧ s.memoryKept t

/-- A jump completes from every state, whatever its target: `ip` is the target when the value differs from
`acc` in any bit and stays when they are equal; every other register and every byte of memory is kept.
Derived from `43_jmp.md` R95 (log entry 5). -/
def Obligations.JumpCompletes : Prop :=
  ∀ (s : State) (val tgt : Word),
    ∃ t, exec (.jmpNotEql val tgt) s = .next t ∧
      ((∃ k, val.getLsbD k ≠ (s.reg .acc).getLsbD k) → t.ip = tgt) ∧
      (val = s.reg .acc → t.ip = s.ip) ∧
      s.regsKeptBut t [.ip] ∧ s.memoryKept t

/-- Moves copy bits exactly: a store of a register and a load from the same address leave the value of the one
register in the other. Derived from R84, which the spec marks as derived (log entry 5). -/
def Obligations.StoreThenLoadCopiesTheRegister : Prop :=
  ∀ (s t : State) (fb tb : Byte) (addr : Word), exec (.movRegMem fb addr) s = .next t →
    ∃ u, exec (.movMemReg addr tb) t = .next u ∧ u.reg (regOf tb) = s.reg (regOf fb) ∧
      s.regsKeptBut u [regOf tb]

/-- The six idioms of R63, each as one step on its bytes at `ip`: the jumps through a literal, a register and
memory (which faults where its two bytes are not inside memory, decision D3), the address of the next
instruction, the no-operation, and the stop by an invalid opcode byte. Derived from R63, which the spec marks
as derived (decision D8 for the stop, log entry 4 for the state the two faults leave). -/
def Obligations.IdiomsHaveTheirEffects : Prop :=
  ∀ (s : State) (target addr : Word) (r : RegName),
    (s.codeAtIp (idiomJump target) → step s = .next (s.atIp target)) ∧
    (s.codeAtIp (idiomJumpRegister r) →
      step s = .next (s.atIp (if r = .ip then s.ip + 3 else s.reg r))) ∧
    (s.codeAtIp (idiomJumpMemory addr) →
      (addr.toNat + 2 ≤ s.size → step s = .next (s.atIp (s.wordAt addr))) ∧
      (s.size < addr.toNat + 2 →
        step s = .fault (.boundsViolation addr .w16 .read (s.atIp (s.ip + 4))))) ∧
    (s.codeAtIp (idiomNextAddress r) →
      ∃ t, step s = .next t ∧ t.reg r = s.ip + 3 ∧ t.ip = s.ip + 3 ∧ s.regsKeptBut t [.ip, r] ∧
        s.memoryKept t) ∧
    (s.codeAtIp idiomNop → step s = .next (s.atIp (s.ip + 3))) ∧
    (s.ip.toNat + 1 ≤ s.size → (s.byteAt s.ip).toNat < 0x10 ∨ 0x15 < (s.byteAt s.ip).toNat →
      step s = .fault (.unknownInstruction (s.byteAt s.ip) (s.atIp (s.ip + 1))))

/-! ### The whole machine -/

/-- A step completes or raises `UnknownInstruction` or `BoundsViolation`; it never raises `UnknownRegister`
and is never refused. Derived from R76 and R77 (R76 is marked as derived; the bounds fault is decision D3). -/
def Obligations.StepCompletesOrRaisesOneOfTwoFaults : Prop :=
  ∀ s : State,
    (∃ t, step s = .next t) ∨
    (∃ t, step s = .fault (.unknownInstruction (s.byteAt s.ip) t)) ∨
    ∃ a w k t, step s = .fault (.boundsViolation a w k t)

/-- A fault inside a step changes nothing but `ip`: the state left is the state at the start with `ip` moved.
Derived from R126, which the spec marks as derived. -/
def Obligations.FaultChangesOnlyIp : Prop :=
  ∀ (s : State) (f : Fault), step s = .fault f → f.left = s.atIp f.left.ip

/-- A `BoundsViolation` of a step names an access that is not inside memory: a read at the `ip` it leaves, or
the data access of a load or a store, with `ip` past the four bytes of the instruction. Derived from R125 and
R126 (decision D3). -/
def Obligations.BoundsFaultNamesItsAccess : Prop :=
  ∀ (s t : State) (a : Word) (w : Width) (k : AccessKind), step s = .fault (.boundsViolation a w k t) →
    s.size < a.toNat + w.bytes ∧
    ((k = .read ∧ t.ip = a) ∨
     (k = .read ∧ w = .w16 ∧ s.byteAt s.ip = 0x13 ∧ t.ip = s.ip + 4 ∧ a = s.wordAt (s.ip + 1)) ∨
     (k = .write ∧ w = .w16 ∧ s.byteAt s.ip = 0x12 ∧ t.ip = s.ip + 4 ∧ a = s.wordAt (s.ip + 2)))

/-- A step that completes writes only what the row of its instruction says: `ip`, and one register for the
moves into a register, `acc` for the addition, two bytes of memory for the store. Derived from the access
table of R18 and the negative checks N3 to N5 of `95_test_vectors.md`. -/
def Obligations.StepWritesOnlyWhatItsRowSays : Prop :=
  ∀ s t : State, step s = .next t →
    (s.byteAt s.ip = 0x10 → s.regsKeptBut t [.ip, regOf (s.byteAt (s.ip + 3))]) ∧
    (s.byteAt s.ip = 0x11 → s.regsKeptBut t [.ip, regOf (s.byteAt (s.ip + 2))]) ∧
    (s.byteAt s.ip = 0x12 → s.regsKeptBut t [.ip] ∧ s.memoryKeptBut16 t (s.wordAt (s.ip + 2))) ∧
    (s.byteAt s.ip = 0x13 → s.regsKeptBut t [.ip, regOf (s.byteAt (s.ip + 3))]) ∧
    (s.byteAt s.ip = 0x14 → s.regsKeptBut t [.ip, .acc]) ∧
    (s.byteAt s.ip = 0x15 → s.regsKeptBut t [.ip]) ∧
    (s.byteAt s.ip ≠ 0x12 → s.memoryKept t)

/-- Every way a step that completes leaves `ip`: past its own bytes, or at the value a jump or a destination
operand congruent to 0 modulo 10 puts there. Derived from R97, which the spec marks as derived. -/
def Obligations.EveryWriteOfIp : Prop :=
  ∀ s t : State, step s = .next t →
    (s.byteAt s.ip = 0x10 →
      t.ip = if (s.byteAt (s.ip + 3)).toNat % 10 = 0 then s.wordAt (s.ip + 1) else s.ip + 4) ∧
    (s.byteAt s.ip = 0x11 →
      t.ip = if (s.byteAt (s.ip + 2)).toNat % 10 = 0 ∧ (s.byteAt (s.ip + 1)).toNat % 10 ≠ 0
        then s.reg (regOf (s.byteAt (s.ip + 1))) else s.ip + 3) ∧
    (s.byteAt s.ip = 0x12 → t.ip = s.ip + 4) ∧
    (s.byteAt s.ip = 0x13 →
      t.ip = if (s.byteAt (s.ip + 3)).toNat % 10 = 0 then s.wordAt (s.wordAt (s.ip + 1)) else s.ip + 4) ∧
    (s.byteAt s.ip = 0x14 → t.ip = s.ip + 3) ∧
    (s.byteAt s.ip = 0x15 →
      t.ip = if s.wordAt (s.ip + 1) = s.reg .acc then s.ip + 5 else s.wordAt (s.ip + 3))

/-- A jump target is not checked when it is written: the jump completes, and the next step faults at its
opcode fetch, changing nothing. Derived from R98, which the spec marks as derived (decision D3, log entry 5). -/
def Obligations.TargetOutsideMemoryFaultsAtTheNextStep : Prop :=
  ∀ (s : State) (val tgt : Word), val ≠ s.reg .acc → s.size ≤ tgt.toNat →
    ∃ t, exec (.jmpNotEql val tgt) s = .next t ∧ t.ip = tgt ∧
      step t = .fault (.boundsViolation tgt .w8 .read t)

/-- A driver that goes on stepping with `ip` outside memory gets the same fault for ever, and the state does
not change. Derived from R127 (decisions D3 and D4). -/
def Obligations.StepsOutsideMemoryRepeatTheFault : Prop :=
  ∀ (s : State) (k : Nat), s.size ≤ s.ip.toNat →
    stateAfterSteps k s = s ∧
    step (stateAfterSteps k s) = .fault (.boundsViolation s.ip .w8 .read s)

/-- After `UnknownInstruction` at `a` the next step decodes the byte at `a + 1` as an opcode. Derived from R127
(decision D4): the core accepts a step after a fault. -/
def Obligations.StepAfterInvalidOpcodeReadsTheNextByte : Prop :=
  ∀ (s t : State) (op : Byte), step s = .fault (.unknownInstruction op t) →
    op = s.byteAt s.ip ∧ stateAfterStep s = t ∧
    ((s.ip + 1).toNat + 1 ≤ s.size → step t = execute (s.byteAt (s.ip + 1)) (s.atIp (s.ip + 2)))

/-- No step, fault or completion, changes `MEM_SIZE`, over any number of steps. Derived from R20 and D2. -/
def Obligations.StepsKeepTheMemorySize : Prop :=
  ∀ (k : Nat) (s : State), (stateAfterSteps k s).size = s.size

/-- A store is seen by later fetches with nothing in between: after a step on `MOV_REG_MEM` a fetch at the
address stored to reads the stored bytes. Derived from R46, which the spec marks as derived. -/
def Obligations.StoreIsSeenByTheNextFetch : Prop :=
  ∀ (s t : State) (addr v : Word), step s = .next t → s.byteAt s.ip = 0x12 → s.wordAt (s.ip + 2) = addr →
    (s.atIp (s.ip + 4)).reg (regOf (s.byteAt (s.ip + 1))) = v →
    (∃ u, fetch8 (t.atIp addr) = .ok (bits15to8 v, u)) ∧ (∃ u, fetch16 (t.atIp addr) = .ok (v, u)) ∧
    step (t.atIp addr) = execute (bits15to8 v) (t.atIp (addr + 1))

/-- The invariant of the machine: memory stays in its canonical form, so every byte it lists is inside memory,
across every step, whether it completes or faults. The form is the model's own (log entry 2). -/
def Obligations.StepKeepsTheInvariant : Prop :=
  ∀ s : State, s.inv → (∀ t, step s = .next t → t.inv) ∧ ∀ f, step s = .fault f → f.left.inv

/-- The invariant holds at reset. -/
def Obligations.ResetMeetsTheInvariant : Prop := State.reset.inv

/-- The invariant holds after every list of host requests from a state that meets it: construction, reset,
steps that complete or fault, the register port and the provider's own writes. Derived from R100 and R111. -/
def Obligations.HostRequestsKeepTheInvariant : Prop :=
  ∀ (requests : List HostRequest) (s : State), s.inv → (stateAfterRequests requests s).inv

/-- The outcome of a step is a function of the registers, `MEM_SIZE` and the bytes of memory alone: states with
the same contents have outcomes no observer can tell apart. Derived from R148, which the spec marks as
derived. -/
def Obligations.StepDependsOnContentsAlone : Prop :=
  ∀ s t : State, s.sameContents t → outcomesAgree (step s) (step t)

/-! ### The memory transactions of a step (`20_memory.md` R38) -/

/-- The transactions of a step that completes are those of its row, in order. Derived from R38, which the spec
marks as derived. -/
def Obligations.TransactionsFollowTheRow : Prop :=
  ∀ (s t : State) (a : Word), step s = .next t → s.ip = a →
    (s.byteAt a = 0x10 → (stepAccesses s).map (fun x => (x.kind, x.addr, x.width)) =
      [(.read, a, .w8), (.read, a + 1, .w16), (.read, a + 3, .w8)]) ∧
    (s.byteAt a = 0x11 → (stepAccesses s).map (fun x => (x.kind, x.addr, x.width)) =
      [(.read, a, .w8), (.read, a + 1, .w8), (.read, a + 2, .w8)]) ∧
    (s.byteAt a = 0x12 → (stepAccesses s).map (fun x => (x.kind, x.addr, x.width)) =
      [(.read, a, .w8), (.read, a + 1, .w8), (.read, a + 2, .w16), (.write, s.wordAt (a + 2), .w16)]) ∧
    (s.byteAt a = 0x13 → (stepAccesses s).map (fun x => (x.kind, x.addr, x.width)) =
      [(.read, a, .w8), (.read, a + 1, .w16), (.read, a + 3, .w8), (.read, s.wordAt (a + 1), .w16)]) ∧
    (s.byteAt a = 0x14 → (stepAccesses s).map (fun x => (x.kind, x.addr, x.width)) =
      [(.read, a, .w8), (.read, a + 1, .w8), (.read, a + 2, .w8)]) ∧
    (s.byteAt a = 0x15 → (stepAccesses s).map (fun x => (x.kind, x.addr, x.width)) =
      [(.read, a, .w8), (.read, a + 1, .w16), (.read, a + 3, .w16)])

/-- A step completes exactly when its opcode is valid and every one of its transactions moved its bytes.
Derived from R38, R76 and R128 (decision D3). -/
def Obligations.StepCompletesWhenItsTransactionsDo : Prop :=
  ∀ s : State,
    (∃ t, step s = .next t) ↔
      (0x10 ≤ (s.byteAt s.ip).toNat ∧ (s.byteAt s.ip).toNat ≤ 0x15 ∧
        ∀ x ∈ stepAccesses s, x.done = true)

/-- The first transaction that leaves memory ends the sequence, and the step's fault names it. Derived from
R128, which the spec marks as derived (decision D3). -/
def Obligations.FirstFailedTransactionEndsTheStep : Prop :=
  ∀ (s : State) (before after : List Access) (x : Access),
    stepAccesses s = before ++ x :: after → x.done = false →
    after = [] ∧ ∃ t, step s = .fault (.boundsViolation x.addr x.width x.kind t)

/-- Main memory after a step that completes is main memory before it with the step's transactions done in
order, and nothing else. Derived from R38, R40 and R43. -/
def Obligations.TransactionsAccountForMemory : Prop :=
  ∀ s t : State, step s = .next t → t.mem = (stepAccesses s).foldl Access.applyTo s.mem

/-! ### The host interface and reset (`44_host_interface.md`, `70_reset_and_hazards.md`) -/

/-- `getRegister` of each of the ten names gives the value of the register the table numbers so, and of any other
name raises `UnknownRegister`; the state is as it was. Derived from R102 and R105: that a name is compared
exactly and case-sensitively is decision D10 (log entry 11). -/
def Obligations.GetRegisterLooksUpTheName : Prop :=
  (∀ s : State,
    getRegister "ip" s = .ok s.regs.ip ∧ getRegister "acc" s = .ok s.regs.acc ∧
    getRegister "r1" s = .ok s.regs.r1 ∧ getRegister "r2" s = .ok s.regs.r2 ∧
    getRegister "r3" s = .ok s.regs.r3 ∧ getRegister "r4" s = .ok s.regs.r4 ∧
    getRegister "r5" s = .ok s.regs.r5 ∧ getRegister "r6" s = .ok s.regs.r6 ∧
    getRegister "r7" s = .ok s.regs.r7 ∧ getRegister "r8" s = .ok s.regs.r8) ∧
  ∀ (s : State) (name : String),
    name ∉ ["ip", "acc", "r1", "r2", "r3", "r4", "r5", "r6", "r7", "r8"] →
    getRegister name s = .error (.unknownRegister name s)

/-- `setRegister` of a valid name stores the value modulo 65536, returns it, and `getRegister` then gives it; no
other register and no byte of memory changes. Of any other name it raises `UnknownRegister` and writes
nothing. Derived from R103, R13 and R105: that a name is compared exactly, and the domain of the value, are
decision D10 (log entry 11). -/
def Obligations.SetRegisterStoresModulo65536 : Prop :=
  (∀ (s : State) (n : RegName) (value : Nat),
    ∃ v t, setRegister n.name value s = .ok (v, t) ∧ v.toNat = value % 65536 ∧
      getRegister n.name t = .ok v ∧ s.regsKeptBut t [n] ∧ s.memoryKept t) ∧
  ∀ (s : State) (name : String) (value : Nat),
    name ∉ ["ip", "acc", "r1", "r2", "r3", "r4", "r5", "r6", "r7", "r8"] →
    setRegister name value s = .error (.unknownRegister name s)

/-- A name outside the table fails with `UnknownRegister` carrying it and changes no state, and only the host's
port can raise that fault: no step does. Derived from R104 and R105: that a name is compared exactly and
case-sensitively is decision D10 (log entry 11). -/
def Obligations.OnlyTheHostPortRaisesUnknownRegister : Prop :=
  (∀ (s : State) (name : String) (value : Nat),
    name ∉ ["ip", "acc", "r1", "r2", "r3", "r4", "r5", "r6", "r7", "r8"] →
    serve (.getRegister name) s = .fault (.unknownRegister name s) ∧
    serve (.setRegister name value) s = .fault (.unknownRegister name s) ∧
    stateAfterRequest (.getRegister name) s = s ∧ stateAfterRequest (.setRegister name value) s = s) ∧
  ∀ (s t : State) (name : String), step s ≠ .fault (.unknownRegister name t)

/-- R25: after construction over any memory every one of the ten registers holds `0x0000`, and so at reset; the
first opcode is fetched from address 0. -/
def Obligations.ConstructionZeroesEveryRegister : Prop :=
  (∀ (m : Memory) (n : RegName), (State.construct m).reg n = 0x0000) ∧ (∀ n, State.reset.reg n = 0x0000) ∧
  ∀ m : Memory, ∃ t, fetch8 (State.construct m) = .ok (m.byte 0, t)

/-- Construction over an image gives a memory of the asked size that holds the image's bytes from address 0,
and refuses exactly the sizes no instance has. Derived from R101, R141 and R143 (decisions D2 and D7; the
bytes beyond the image are log entry 2's and not claimed here; that an image longer than memory is accepted,
its bytes beyond memory dropped, is log entry 25, the model's choice). -/
def Obligations.ConstructionKeepsTheImage : Prop :=
  ∀ (size : Nat) (image : List Byte) (s : State),
    (1 ≤ size → size ≤ 65536 →
      ∃ t, serve (.construct size image) s = .next ⟨t, none⟩ ∧ t.size = size ∧
        (∀ n, t.reg n = 0x0000) ∧
        ∀ (a : Nat) (b : Byte), a < size → image[a]? = some b → t.mem.byte a = b) ∧
    (size = 0 ∨ 65536 < size → serve (.construct size image) s = .refused (.memorySize size))

/-- The reset input, applied to any state, zeroes the registers and leaves main memory untouched. Derived from
R140 and R142 (decision D6, log entry 10). -/
def Obligations.ResetInputKeepsMemory : Prop :=
  ∀ s : State, ∃ t, serve .reset s = .next ⟨t, none⟩ ∧ (∀ n, t.reg n = 0x0000) ∧ t.mem = s.mem

/-- A memory nobody loaded does not run: over an all-zero memory of any size the first step fetches opcode
`0x00` and raises `UnknownInstruction` with `ip = 1`. Derived from R144, which the spec marks as derived. -/
def Obligations.UnloadedMemoryDoesNotRun : Prop :=
  ∀ s : State, (∀ n, s.reg n = 0x0000) → (∀ a, a < s.size → s.mem.byte a = 0x00) →
    ∃ t, step s = .fault (.unknownInstruction 0x00 t) ∧ t.ip = 0x0001 ∧ s.regsKeptBut t [.ip] ∧
      s.memoryKept t

/-- Boot: with the program's bytes in memory and the entry written to `ip`, the first fetch reads the byte at
the entry, and every other register is zero. Derived from R143. -/
def Obligations.BootFetchesAtTheEntry : Prop :=
  ∀ (m : Memory) (entry : Nat), entry < m.size.val →
    (∃ t, fetch8 (boot m entry) = .ok (m.byte entry, t)) ∧
    (∀ n, n ≠ .ip → (boot m entry).reg n = 0x0000) ∧ (boot m entry).mem = m

/-- The host's own access to memory between steps: a write is seen by every later read and by the next step's
fetch, changes no register and no other byte; a read changes nothing. A value wider than the access is stored modulo 256 or 65536, and outside memory the
access is refused: both are the model's choices (log entries 24 and 12). Derived from R107 and R45. -/
def Obligations.HostMemoryAccessIsSeen : Prop :=
  ∀ (s : State) (a : Word) (v : Nat),
    (a.toNat + 1 ≤ s.size →
      ∃ t, serve (.memorySet a.toNat .w8 v) s = .next ⟨t, none⟩ ∧ t.regs = s.regs ∧
        serve (.memoryGet a.toNat .w8) t = .next ⟨t, some (v % 256)⟩ ∧
        (∃ u, fetch8 (t.atIp a) = .ok (BitVec.ofNat 8 v, u)) ∧
        ∀ b, b ≠ a.toNat → t.mem.byte b = s.mem.byte b) ∧
    (a.toNat + 2 ≤ s.size →
      ∃ t, serve (.memorySet a.toNat .w16 v) s = .next ⟨t, none⟩ ∧ t.regs = s.regs ∧
        serve (.memoryGet a.toNat .w16) t = .next ⟨t, some (v % 65536)⟩ ∧
        (∃ u, fetch16 (t.atIp a) = .ok (BitVec.ofNat 16 v, u)) ∧ s.memoryKeptBut16 t a) ∧
    ∀ w : Width, s.size < a.toNat + w.bytes →
      serve (.memorySet a.toNat w v) s = .refused (.providerAccess a.toNat w .write) ∧
      serve (.memoryGet a.toNat w) s = .refused (.providerAccess a.toNat w .read)

/-- The register bank as bytes: twenty of them, register number `i` at bytes `2i` and `2i + 1`, high byte
first. Derived from R14 (decision D14, log entry 9). -/
def Obligations.RegisterBankLayout : Prop :=
  ∀ (r : Regs) (n : RegName),
    r.bankBytes.length = 20 ∧
    r.bankBytes[2 * n.number]? = some (bits15to8 (r.get n)) ∧
    r.bankBytes[2 * n.number + 1]? = some (bits7to0 (r.get n))

/-- The host's interface for one instruction: a table word the decoder reads as an instruction, placed where
the machine fetches with room for the longest instruction, is what the next step runs. Derived from R52 and
R143 (log entries 7 and 8). -/
def Obligations.PlacedTableWordRuns : Prop :=
  ∀ (s : State) (nbits w : Nat) (i : Instr), nbits ≤ 40 → s.ip.toNat + 5 ≤ s.size →
    decodeTableWord nbits w = some i →
    step (s.withFetchWord nbits w) =
      exec i ((s.withFetchWord nbits w).atIp (s.ip + BitVec.ofNat 16 i.length))
end

