-- ==== Sys2Proof/Laws/Decode.lean ====
section
/-! SUPPORT. The laws of byte order and of the opcode map (`20_memory.md` R31, `30_encoding.md` R53). -/

namespace Sys2Proof

/-! ### Byte order -/

theorem toNat_beWord (hi lo : Byte) : (beWord hi lo).toNat = hi.toNat * 256 + lo.toNat := by
  have := hi.isLt
  have := lo.isLt
  simp only [beWord, BitVec.toNat_ofNat]
  omega

theorem toNat_hiByte (w : Word) : (hiByte w).toNat = w.toNat / 256 := by
  have := w.isLt
  simp only [hiByte, BitVec.toNat_ofNat]
  omega

theorem toNat_loByte (w : Word) : (loByte w).toNat = w.toNat % 256 := by
  simp only [loByte, BitVec.toNat_ofNat]
  omega

@[simp] theorem beWord_hiByte_loByte (w : Word) : beWord (hiByte w) (loByte w) = w := by
  apply BitVec.eq_of_toNat_eq
  rw [toNat_beWord, toNat_hiByte, toNat_loByte]
  omega

@[simp] theorem hiByte_beWord (hi lo : Byte) : hiByte (beWord hi lo) = hi := by
  have := lo.isLt
  apply BitVec.eq_of_toNat_eq
  rw [toNat_hiByte, toNat_beWord]
  omega

@[simp] theorem loByte_beWord (hi lo : Byte) : loByte (beWord hi lo) = lo := by
  have := lo.isLt
  apply BitVec.eq_of_toNat_eq
  rw [toNat_loByte, toNat_beWord]
  omega

/-- The word of two bytes is their concatenation, the first in the more significant place (`00_scope.md` R6). -/
theorem beWord_eq_append (hi lo : Byte) : beWord hi lo = hi ++ lo := by
  apply BitVec.eq_of_toNat_eq
  have := lo.isLt
  rw [toNat_beWord, BitVec.toNat_append, ← Nat.shiftLeft_add_eq_or_of_lt this, Nat.shiftLeft_eq]

/-! ### The opcode map -/

@[simp] theorem Opcode.ofByte_byte (o : Opcode) : Opcode.ofByte o.byte = some o := by
  cases o <;> rfl

/-- A byte is an opcode exactly when it is that opcode's byte. -/
theorem Opcode.ofByte_eq_some {op : Byte} {o : Opcode} (h : Opcode.ofByte op = some o) : op = o.byte := by
  apply BitVec.eq_of_toNat_eq
  unfold Opcode.ofByte at h
  split at h <;> cases h <;> assumption

/-- The opcodes are the bytes `0x10` to `0x15` (R53, R58). -/
theorem Opcode.ofByte_eq_none_iff (op : Byte) :
    Opcode.ofByte op = none ↔ op.toNat < 0x10 ∨ 0x15 < op.toNat := by
  revert op
  decide

end Sys2Proof
end

