-- ==== Sys2Proof/Laws/Memory.lean ====
section
/-! SUPPORT. The laws of memory: a byte read after a byte stored, the size, and the canonical form, which
every memory operation keeps (`20_memory.md` R31 to R34). None of the read laws needs the form. -/

namespace Sys2Proof.Machine

/-! ### Reading after storing one byte -/

theorem cellAt_eraseCell_same (cells : List Host.Cell) (a : Nat) :
    cellAt (eraseCell cells a) a = Config.unlistedByte := by
  induction cells with
  | nil => rfl
  | cons c rest ih =>
    obtain ⟨k, v⟩ := c
    by_cases hk : k = a
    · simpa [eraseCell, hk] using ih
    · simpa [eraseCell, cellAt, hk] using ih

theorem cellAt_eraseCell_other (cells : List Host.Cell) {a b : Nat} (h : b ≠ a) :
    cellAt (eraseCell cells a) b = cellAt cells b := by
  induction cells with
  | nil => rfl
  | cons c rest ih =>
    obtain ⟨k, v⟩ := c
    by_cases hk : k = a
    · subst hk
      simpa [eraseCell, cellAt, Ne.symm h] using ih
    · simp only [eraseCell] at ih
      simp [eraseCell, cellAt, hk, ih]

theorem cellAt_insertCell_other (cells : List Host.Cell) {a b : Nat} (v : Byte) (h : b ≠ a) :
    cellAt (insertCell a v cells) b = cellAt cells b := by
  induction cells with
  | nil => simp [insertCell, cellAt, Ne.symm h]
  | cons c rest ih =>
    obtain ⟨k, w⟩ := c
    by_cases hk : a < k
    · simp [insertCell, hk, cellAt, Ne.symm h]
    · simp [insertCell, hk, cellAt, ih]

theorem cellAt_insertCell_same (cells : List Host.Cell) (a : Nat) (v : Byte)
    (h : ∀ c ∈ cells, c.1 ≠ a) : cellAt (insertCell a v cells) a = v := by
  induction cells with
  | nil => simp [insertCell, cellAt]
  | cons c rest ih =>
    obtain ⟨k, w⟩ := c
    have hka : k ≠ a := h (k, w) (by simp)
    by_cases hk : a < k
    · simp [insertCell, hk, cellAt]
    · simp [insertCell, hk, cellAt, hka, ih (fun c hc => h c (by simp [hc]))]

theorem eraseCell_absent (cells : List Host.Cell) (a : Nat) : ∀ c ∈ eraseCell cells a, c.1 ≠ a := by
  intro c hc
  simpa [eraseCell] using (List.mem_filter.mp hc).2

/-- A byte read after a byte stored: the stored value at its address, the old value elsewhere. -/
theorem Memory.byte_setByte (m : Memory) (a b : Nat) (v : Byte) :
    (m.setByte a v).byte b = if b = a then v else m.byte b := by
  unfold Memory.byte Memory.setByte storeCell
  by_cases hv : v = Config.unlistedByte <;> by_cases hb : b = a
  · subst hb; simp [hv, cellAt_eraseCell_same]
  · simp [hv, hb, cellAt_eraseCell_other _ hb]
  · subst hb; simp [hv, cellAt_insertCell_same _ _ _ (eraseCell_absent m.cells b)]
  · simp [hv, hb, cellAt_insertCell_other _ _ hb, cellAt_eraseCell_other _ hb]

@[simp] theorem Memory.byte_setByte_same (m : Memory) (a : Nat) (v : Byte) : (m.setByte a v).byte a = v := by
  simp [Memory.byte_setByte]

theorem Memory.byte_setByte_other (m : Memory) {a b : Nat} (v : Byte) (h : b ≠ a) :
    (m.setByte a v).byte b = m.byte b := by
  simp [Memory.byte_setByte, h]

@[simp] theorem Memory.size_setByte (m : Memory) (a : Nat) (v : Byte) : (m.setByte a v).size = m.size := rfl

@[simp] theorem Memory.byte_blank (size : MemSize) (a : Nat) :
    (Memory.blank size).byte a = Config.unlistedByte := rfl

@[simp] theorem Memory.size_blank (size : MemSize) : (Memory.blank size).size = size := rfl

/-! ### Reading after storing a word -/

theorem Memory.byte_setWord (m : Memory) (a b : Nat) (v : Word) :
    (m.setWord a v).byte b =
      if b = a + 1 then loByte v else if b = a then hiByte v else m.byte b := by
  simp [Memory.setWord, Memory.byte_setByte]

@[simp] theorem Memory.byte_setWord_hi (m : Memory) (a : Nat) (v : Word) :
    (m.setWord a v).byte a = hiByte v := by
  simp [Memory.byte_setWord]

@[simp] theorem Memory.byte_setWord_lo (m : Memory) (a : Nat) (v : Word) :
    (m.setWord a v).byte (a + 1) = loByte v := by
  simp [Memory.byte_setWord]

theorem Memory.byte_setWord_other (m : Memory) {a b : Nat} (v : Word) (h : b ≠ a) (h' : b ≠ a + 1) :
    (m.setWord a v).byte b = m.byte b := by
  simp [Memory.byte_setWord, h, h']

@[simp] theorem Memory.size_setWord (m : Memory) (a : Nat) (v : Word) : (m.setWord a v).size = m.size := rfl

/-! ### The canonical form -/

theorem pairwise_eraseCell {cells : List Host.Cell} (a : Nat)
    (h : cells.Pairwise (fun c d => c.1 < d.1)) : (eraseCell cells a).Pairwise (fun c d => c.1 < d.1) :=
  h.filter _

theorem mem_insertCell {a : Nat} {v : Byte} {cells : List Host.Cell} {c : Host.Cell}
    (h : c ∈ insertCell a v cells) : c = (a, v) ∨ c ∈ cells := by
  induction cells with
  | nil => simpa [insertCell] using h
  | cons d rest ih =>
    obtain ⟨k, w⟩ := d
    by_cases hk : a < k
    · simpa [insertCell, hk] using h
    · simp only [insertCell, hk, if_false, List.mem_cons] at h ⊢
      rcases h with h | h
      · exact .inr (.inl h)
      · exact (ih h).imp_right .inr

theorem pairwise_insertCell {cells : List Host.Cell} (a : Nat) (v : Byte)
    (h : cells.Pairwise (fun c d => c.1 < d.1)) (ha : ∀ c ∈ cells, c.1 ≠ a) :
    (insertCell a v cells).Pairwise (fun c d => c.1 < d.1) := by
  induction cells with
  | nil => simp [insertCell]
  | cons d rest ih =>
    obtain ⟨k, w⟩ := d
    have hp := List.pairwise_cons.mp h
    have hka : k ≠ a := ha (k, w) (by simp)
    by_cases hk : a < k
    · simp only [insertCell, hk, if_true]
      refine List.pairwise_cons.mpr ⟨?_, h⟩
      intro c hc
      rcases List.mem_cons.mp hc with rfl | hc
      · exact hk
      · exact Nat.lt_trans hk (hp.1 c hc)
    · simp only [insertCell, hk, if_false]
      refine List.pairwise_cons.mpr ⟨?_, ih hp.2 (fun c hc => ha c (by simp [hc]))⟩
      intro c hc
      rcases mem_insertCell hc with rfl | hc
      · show k < a
        omega
      · exact hp.1 c hc

/-- A byte stored inside memory keeps the canonical form. -/
theorem Memory.wf_setByte {m : Memory} (a : Nat) (v : Byte) (h : m.wf) (ha : a < m.size.val) :
    (m.setByte a v).wf := by
  obtain ⟨hp, hc⟩ := h
  have he : ∀ c ∈ eraseCell m.cells a, c.1 < m.size.val ∧ c.2 ≠ Config.unlistedByte :=
    fun c hmem => hc c (List.mem_of_mem_filter hmem)
  unfold Memory.wf Memory.setByte storeCell
  by_cases hv : v = Config.unlistedByte
  · simp only [hv, if_true]
    exact ⟨pairwise_eraseCell a hp, he⟩
  · simp only [hv, if_false]
    refine ⟨pairwise_insertCell a v (pairwise_eraseCell a hp) (eraseCell_absent m.cells a), ?_⟩
    intro c hmem
    rcases mem_insertCell hmem with rfl | hmem
    · exact ⟨ha, hv⟩
    · exact he c hmem

/-- A word stored inside memory keeps the canonical form. -/
theorem Memory.wf_setWord {m : Memory} (a : Nat) (v : Word) (h : m.wf) (ha : a + 1 < m.size.val) :
    (m.setWord a v).wf :=
  Memory.wf_setByte _ _ (Memory.wf_setByte _ _ h (Nat.lt_of_succ_lt ha)) ha

theorem Memory.wf_blank (size : MemSize) : (Memory.blank size).wf := by
  simp [Memory.wf, Memory.blank]

theorem Memory.wf_load (bytes : List Byte) {m : Memory} (base : Nat) (h : m.wf) : (m.load base bytes).wf := by
  induction bytes generalizing m base with
  | nil => exact h
  | cons b rest ih =>
    refine ih _ ?_
    split
    · exact Memory.wf_setByte _ _ h ‹_›
    · exact h

theorem Memory.wf_placeCode (bytes : List Byte) {m : Memory} (a : Word) (h : m.wf) :
    (placeCode m a bytes).wf := by
  induction bytes generalizing m a with
  | nil => exact h
  | cons b rest ih =>
    refine ih _ ?_
    split
    · exact Memory.wf_setByte _ _ h ‹_›
    · exact h

theorem Memory.wf_hostSet {m t : Memory} {a : Nat} {w : Width} {v : Nat} (h : m.wf)
    (hs : m.hostSet a w v = some t) : t.wf := by
  unfold Memory.hostSet at hs
  split at hs
  · cases w
    · cases hs; exact Memory.wf_setByte _ _ h ‹_›
    · cases hs; exact Memory.wf_setWord _ _ h ‹_›
  · cases hs

@[simp] theorem Memory.size_load (bytes : List Byte) (m : Memory) (base : Nat) :
    (m.load base bytes).size = m.size := by
  induction bytes generalizing m base with
  | nil => rfl
  | cons b rest ih => rw [Memory.load, ih]; split <;> rfl

@[simp] theorem Memory.size_placeCode (bytes : List Byte) (m : Memory) (a : Word) :
    (placeCode m a bytes).size = m.size := by
  induction bytes generalizing m a with
  | nil => rfl
  | cons b rest ih => rw [placeCode, ih]; split <;> rfl

end Sys2Proof.Machine
end

