-- ==== Sys2Proof/Laws/State.lean ====
section
/-! SUPPORT. What each update of the state does to each part of it, and the laws of the register bank
(`10_state.md` R12, R13, R16). -/

namespace Sys2Proof.Machine

/-! ### The register bank -/

@[simp] theorem Regs.get_set_same (r : Regs) (n : RegName) (w : Word) : (r.set n w).get n = w := by
  cases n <;> rfl

theorem Regs.get_set_other (r : Regs) {n k : RegName} (w : Word) (h : k ≠ n) :
    (r.set n w).get k = r.get k := by
  cases n <;> cases k <;> first | rfl | exact absurd rfl h

theorem Regs.get_set (r : Regs) (n k : RegName) (w : Word) :
    (r.set n w).get k = if k = n then w else r.get k := by
  split
  · subst k; exact r.get_set_same n w
  · exact r.get_set_other w ‹_›

@[simp] theorem Regs.set_set_same (r : Regs) (n : RegName) (v w : Word) :
    (r.set n v).set n w = r.set n w := by
  cases n <;> rfl

@[simp] theorem Regs.set_get_self (r : Regs) (n : RegName) : r.set n (r.get n) = r := by
  cases n <;> rfl

@[simp] theorem Regs.get_zero (n : RegName) : Regs.zero.get n = 0 := by
  cases n <;> rfl

/-- Two banks that read alike at every register are the same bank. -/
theorem Regs.ext_get {r q : Regs} (h : ∀ n, r.get n = q.get n) : r = q := by
  cases r; cases q
  simp only [Regs.mk.injEq]
  exact ⟨h .ip, h .acc, h .r1, h .r2, h .r3, h .r4, h .r5, h .r6, h .r7, h .r8⟩

/-! ### Register read and write -/

@[simp] theorem State.reg_setReg_same (s : State) (n : RegName) (v : Nat) :
    (s.setReg n v).reg n = BitVec.ofNat 16 v := Regs.get_set_same _ _ _

theorem State.reg_setReg_other (s : State) {n k : RegName} (v : Nat) (h : k ≠ n) :
    (s.setReg n v).reg k = s.reg k := Regs.get_set_other _ _ h

theorem State.reg_setReg (s : State) (n k : RegName) (v : Nat) :
    (s.setReg n v).reg k = if k = n then BitVec.ofNat 16 v else s.reg k := Regs.get_set _ _ _ _

@[simp] theorem State.setReg_mem (s : State) (n : RegName) (v : Nat) : (s.setReg n v).mem = s.mem := rfl

@[simp] theorem State.setReg_regs (s : State) (n : RegName) (v : Nat) :
    (s.setReg n v).regs = s.regs.set n (BitVec.ofNat 16 v) := rfl

@[simp] theorem State.setReg_setReg_same (s : State) (n : RegName) (v w : Nat) :
    (s.setReg n v).setReg n w = s.setReg n w := by
  simp [State.setReg]

@[simp] theorem State.setReg_reg_self (s : State) (n : RegName) : s.setReg n (s.reg n).toNat = s := by
  simp [State.setReg, State.reg]

@[simp] theorem State.ip_setReg_ip (s : State) (v : Nat) : (s.setReg .ip v).ip = BitVec.ofNat 16 v :=
  s.reg_setReg_same .ip v

@[simp] theorem State.reg_withMem (s : State) (m : Memory) (n : RegName) :
    ({ s with mem := m } : State).reg n = s.reg n := rfl

@[simp] theorem State.ip_withMem (s : State) (m : Memory) : ({ s with mem := m } : State).ip = s.ip := rfl

/-! ### Size and bytes -/

@[simp] theorem State.size_setReg (s : State) (n : RegName) (v : Nat) : (s.setReg n v).size = s.size := rfl

@[simp] theorem State.byteAt_setReg (s : State) (n : RegName) (v : Nat) (a : Word) :
    (s.setReg n v).byteAt a = s.byteAt a := rfl

@[simp] theorem State.size_atIp (s : State) (a : Word) : (s.atIp a).size = s.size := rfl

@[simp] theorem State.byteAt_atIp (s : State) (a b : Word) : (s.atIp a).byteAt b = s.byteAt b := rfl

/-! ### The advance of `ip` -/

theorem ofNat_toNat_add (a : Word) (k : Nat) : BitVec.ofNat 16 (a.toNat + k) = a + BitVec.ofNat 16 k := by
  apply BitVec.eq_of_toNat_eq
  simp

/-- The advance is the move of `ip` to the sum, modulo 65536 (R16). -/
theorem State.advance_eq_atIp (s : State) (k : Nat) : s.advance k = s.atIp (s.ip + BitVec.ofNat 16 k) := by
  rw [← ofNat_toNat_add]
  simp only [State.advance, State.atIp, State.setReg, BitVec.ofNat_toNat, BitVec.setWidth_eq]

@[simp] theorem State.advance_mem (s : State) (k : Nat) : (s.advance k).mem = s.mem := rfl

@[simp] theorem State.ip_advance (s : State) (k : Nat) : (s.advance k).ip = s.ip + BitVec.ofNat 16 k := by
  rw [State.advance, State.ip_setReg_ip, ofNat_toNat_add]

theorem State.reg_advance_other (s : State) (k : Nat) {n : RegName} (h : n ≠ .ip) :
    (s.advance k).reg n = s.reg n := s.reg_setReg_other _ h

/-! ### Moving `ip` -/

@[simp] theorem State.ip_atIp (s : State) (a : Word) : (s.atIp a).ip = a := by
  simp [State.atIp]

@[simp] theorem State.reg_ip_atIp (s : State) (a : Word) : (s.atIp a).reg .ip = a := by
  simp [State.atIp]

@[simp] theorem State.atIp_mem (s : State) (a : Word) : (s.atIp a).mem = s.mem := rfl

theorem State.reg_atIp_other (s : State) (a : Word) {n : RegName} (h : n ≠ .ip) :
    (s.atIp a).reg n = s.reg n := s.reg_setReg_other _ h

@[simp] theorem State.atIp_atIp (s : State) (a b : Word) : (s.atIp a).atIp b = s.atIp b := by
  simp [State.atIp]

@[simp] theorem State.atIp_self (s : State) : s.atIp s.ip = s := s.setReg_reg_self .ip

@[simp] theorem State.advance_atIp (s : State) (a : Word) (k : Nat) :
    (s.atIp a).advance k = s.atIp (a + BitVec.ofNat 16 k) := by
  rw [State.advance_eq_atIp, State.ip_atIp, State.atIp_atIp]

/-! ### Frames -/

theorem State.regsKeptBut_setReg (s : State) (n : RegName) (v : Nat) : s.regsKeptBut (s.setReg n v) [n] := by
  intro k hk
  exact s.reg_setReg_other v (by simpa using hk)

theorem State.memoryKept_of_mem_eq {s t : State} (h : t.mem = s.mem) : s.memoryKept t := by
  unfold State.memoryKept
  rw [h]
  exact ⟨rfl, fun _ => rfl⟩

end Sys2Proof.Machine
end

