-- ==== Sys2Proof/Laws/Ops.lean ====
section
/-! SUPPORT. Everything an access primitive and a fetch can do (`20_memory.md` R33 to R35, `40_cycle.md` R71
to R73): one equation where the access is inside memory, one where it is not. -/

namespace Sys2Proof.Machine

/-! ### The access primitives -/

theorem memRead8_inside {s : State} {a : Word} (h : a.toNat + 1 ≤ s.size) :
    memRead8 a s = .ok (s.byteAt a) := if_pos h

theorem memRead8_outside {s : State} {a : Word} (h : s.size < a.toNat + 1) :
    memRead8 a s = .error (.boundsViolation a .w8 .read s) := if_neg (Nat.not_le.mpr h)

theorem memRead16_inside {s : State} {a : Word} (h : a.toNat + 2 ≤ s.size) :
    memRead16 a s = .ok (s.mem.word a.toNat) := if_pos h

theorem memRead16_outside {s : State} {a : Word} (h : s.size < a.toNat + 2) :
    memRead16 a s = .error (.boundsViolation a .w16 .read s) := if_neg (Nat.not_le.mpr h)

theorem memWrite16_inside {s : State} {a : Word} (v : Word) (h : a.toNat + 2 ≤ s.size) :
    memWrite16 a v s = .ok { s with mem := s.mem.setWord a.toNat v } := if_pos h

theorem memWrite16_outside {s : State} {a : Word} (v : Word) (h : s.size < a.toNat + 2) :
    memWrite16 a v s = .error (.boundsViolation a .w16 .write s) := if_neg (Nat.not_le.mpr h)

theorem memWrite8_inside {s : State} {a : Word} (v : Byte) (h : a.toNat + 1 ≤ s.size) :
    memWrite8 a v s = .ok { s with mem := s.mem.setByte a.toNat v } := if_pos h

theorem memWrite8_outside {s : State} {a : Word} (v : Byte) (h : s.size < a.toNat + 1) :
    memWrite8 a v s = .error (.boundsViolation a .w8 .write s) := if_neg (Nat.not_le.mpr h)

/-! ### Addresses inside memory -/

/-- The size of a memory is at most the number of 16-bit addresses (decision D2). -/
theorem State.size_le (s : State) : s.size ≤ 65536 := s.mem.size.le

/-- The second byte of a 16-bit access inside memory stands at the next 16-bit address. -/
theorem toNat_succ_of_inside {s : State} {a : Word} (h : a.toNat + 2 ≤ s.size) :
    (a + 1).toNat = a.toNat + 1 := by
  have := s.size_le
  have ha : a.toNat + 1 < 65536 := by omega
  simp [BitVec.toNat_add, Nat.mod_eq_of_lt ha]

/-- A word read inside memory, by its two bytes at 16-bit addresses. -/
theorem State.word_eq {s : State} {a : Word} (h : a.toNat + 2 ≤ s.size) :
    s.mem.word a.toNat = beWord (s.byteAt a) (s.byteAt (a + 1)) := by
  rw [Memory.word, State.byteAt, State.byteAt, toNat_succ_of_inside h]

/-! ### The fetches -/

theorem fetch8_inside {s : State} (h : s.ip.toNat + 1 ≤ s.size) :
    fetch8 s = .ok (s.byteAt s.ip, s.atIp (s.ip + 1)) := by
  simp [fetch8, memRead8_inside h, State.advance_eq_atIp]

theorem fetch8_outside {s : State} (h : s.size < s.ip.toNat + 1) :
    fetch8 s = .error (.boundsViolation s.ip .w8 .read s) := by
  simp [fetch8, memRead8_outside h]

theorem fetch16_inside {s : State} (h : s.ip.toNat + 2 ≤ s.size) :
    fetch16 s = .ok (beWord (s.byteAt s.ip) (s.byteAt (s.ip + 1)), s.atIp (s.ip + 2)) := by
  simp [fetch16, memRead16_inside h, State.word_eq h, State.advance_eq_atIp]

theorem fetch16_outside {s : State} (h : s.size < s.ip.toNat + 2) :
    fetch16 s = .error (.boundsViolation s.ip .w16 .read s) := by
  simp [fetch16, memRead16_outside h]

/-! ### A fetch that completes or faults, by what it leaves -/

/-- A fetch of one byte that completes moves `ip` by one and changes nothing else. -/
theorem fetch8_ok {s t : State} {v : Byte} (h : fetch8 s = .ok (v, t)) :
    s.ip.toNat + 1 ≤ s.size ∧ v = s.byteAt s.ip ∧ t = s.atIp (s.ip + 1) := by
  rcases Nat.lt_or_ge s.size (s.ip.toNat + 1) with hb | hb
  · rw [fetch8_outside hb] at h; cases h
  · rw [fetch8_inside hb] at h; cases h; exact ⟨hb, rfl, rfl⟩

/-- A fetch of one byte that faults leaves the state as it was. -/
theorem fetch8_error {s : State} {f : Fault} (h : fetch8 s = .error f) :
    s.size < s.ip.toNat + 1 ∧ f = .boundsViolation s.ip .w8 .read s := by
  rcases Nat.lt_or_ge s.size (s.ip.toNat + 1) with hb | hb
  · rw [fetch8_outside hb] at h; cases h; exact ⟨hb, rfl⟩
  · rw [fetch8_inside hb] at h; cases h

/-- A fetch of two bytes that completes moves `ip` by two and changes nothing else. -/
theorem fetch16_ok {s t : State} {v : Word} (h : fetch16 s = .ok (v, t)) :
    s.ip.toNat + 2 ≤ s.size ∧ v = beWord (s.byteAt s.ip) (s.byteAt (s.ip + 1)) ∧ t = s.atIp (s.ip + 2) := by
  rcases Nat.lt_or_ge s.size (s.ip.toNat + 2) with hb | hb
  · rw [fetch16_outside hb] at h; cases h
  · rw [fetch16_inside hb] at h; cases h; exact ⟨hb, rfl, rfl⟩

/-- A fetch of two bytes that faults leaves the state as it was. -/
theorem fetch16_error {s : State} {f : Fault} (h : fetch16 s = .error f) :
    s.size < s.ip.toNat + 2 ∧ f = .boundsViolation s.ip .w16 .read s := by
  rcases Nat.lt_or_ge s.size (s.ip.toNat + 2) with hb | hb
  · rw [fetch16_outside hb] at h; cases h; exact ⟨hb, rfl⟩
  · rw [fetch16_inside hb] at h; cases h

end Sys2Proof.Machine
end

