-- ==== Sys2Proof/Laws/Exec.lean ====
section
/-! SUPPORT. What each meaning answers, once: the effect of phase 2 of an instruction (`40_cycle.md` R74). -/

namespace Sys2Proof.Machine

theorem exec_movRegMem_inside {s : State} (fb : Byte) {addr : Word} (h : addr.toNat + 2 ≤ s.size) :
    exec (.movRegMem fb addr) s = .next { s with mem := s.mem.setWord addr.toNat (readOperand fb s) } := by
  simp [exec, execMovRegMem, memWrite16_inside _ h, finish]

theorem exec_movRegMem_outside {s : State} (fb : Byte) {addr : Word} (h : s.size < addr.toNat + 2) :
    exec (.movRegMem fb addr) s = .fault (.boundsViolation addr .w16 .write s) := by
  simp [exec, execMovRegMem, memWrite16_outside _ h, finish]

theorem exec_movMemReg_inside {s : State} {addr : Word} (tb : Byte) (h : addr.toNat + 2 ≤ s.size) :
    exec (.movMemReg addr tb) s = .next (writeOperand tb (s.mem.word addr.toNat) s) := by
  simp [exec, execMovMemReg, memRead16_inside h, finish, Except.map]

theorem exec_movMemReg_outside {s : State} {addr : Word} (tb : Byte) (h : s.size < addr.toNat + 2) :
    exec (.movMemReg addr tb) s = .fault (.boundsViolation addr .w16 .read s) := by
  simp [exec, execMovMemReg, memRead16_outside h, finish, Except.map]

/-- An effect faults only for a load or a store outside memory, and then changes nothing. -/
theorem exec_fault {i : Instr} {s : State} {f : Fault} (h : exec i s = .fault f) :
    (∃ fb addr, i = .movRegMem fb addr ∧ s.size < addr.toNat + 2 ∧
      f = .boundsViolation addr .w16 .write s) ∨
    (∃ addr tb, i = .movMemReg addr tb ∧ s.size < addr.toNat + 2 ∧
      f = .boundsViolation addr .w16 .read s) := by
  cases i with
  | movLitReg lit rb => cases h
  | movRegReg fb tb => cases h
  | movRegMem fb addr =>
    rcases Nat.lt_or_ge s.size (addr.toNat + 2) with hb | hb
    · rw [exec_movRegMem_outside _ hb] at h; cases h; exact .inl ⟨fb, addr, rfl, hb, rfl⟩
    · rw [exec_movRegMem_inside _ hb] at h; cases h
  | movMemReg addr tb =>
    rcases Nat.lt_or_ge s.size (addr.toNat + 2) with hb | hb
    · rw [exec_movMemReg_outside _ hb] at h; cases h; exact .inr ⟨addr, tb, rfl, hb, rfl⟩
    · rw [exec_movMemReg_inside _ hb] at h; cases h
  | addRegReg b1 b2 => cases h
  | jmpNotEql val tgt => cases h

/-- No effect is refused. -/
theorem exec_not_refused (i : Instr) (s : State) (r : Refusal) : exec i s ≠ .refused r := by
  intro h
  cases i with
  | movLitReg lit rb => cases h
  | movRegReg fb tb => cases h
  | movRegMem fb addr =>
    rcases Nat.lt_or_ge s.size (addr.toNat + 2) with hb | hb
    · rw [exec_movRegMem_outside _ hb] at h; cases h
    · rw [exec_movRegMem_inside _ hb] at h; cases h
  | movMemReg addr tb =>
    rcases Nat.lt_or_ge s.size (addr.toNat + 2) with hb | hb
    · rw [exec_movMemReg_outside _ hb] at h; cases h
    · rw [exec_movMemReg_inside _ hb] at h; cases h
  | addRegReg b1 b2 => cases h
  | jmpNotEql val tgt => cases h

/-- An effect that completes either stores one word inside memory and changes no register, or changes one
register at most and no memory. -/
theorem exec_next {i : Instr} {s t : State} (h : exec i s = .next t) :
    (∃ fb addr, i = .movRegMem fb addr ∧ addr.toNat + 2 ≤ s.size ∧
      t = { s with mem := s.mem.setWord addr.toNat (readOperand fb s) }) ∨
    ((∀ fb addr, i ≠ .movRegMem fb addr) ∧ ∃ n v, t = s.setReg n v) := by
  cases i with
  | movLitReg lit rb => cases h; exact .inr ⟨by simp, _, _, rfl⟩
  | movRegReg fb tb => cases h; exact .inr ⟨by simp, _, _, rfl⟩
  | movRegMem fb addr =>
    rcases Nat.lt_or_ge s.size (addr.toNat + 2) with hb | hb
    · rw [exec_movRegMem_outside _ hb] at h; cases h
    · rw [exec_movRegMem_inside _ hb] at h; cases h; exact .inl ⟨fb, addr, rfl, hb, rfl⟩
  | movMemReg addr tb =>
    rcases Nat.lt_or_ge s.size (addr.toNat + 2) with hb | hb
    · rw [exec_movMemReg_outside _ hb] at h; cases h
    · rw [exec_movMemReg_inside _ hb] at h; cases h; exact .inr ⟨by simp, _, _, rfl⟩
  | addRegReg b1 b2 => cases h; exact .inr ⟨by simp, _, _, rfl⟩
  | jmpNotEql val tgt =>
    refine .inr ⟨by simp, ?_⟩
    simp only [exec, execJmpNotEql, Host.Outcome.next.injEq] at h
    split at h
    · exact ⟨_, _, h.symm⟩
    · exact ⟨.ip, (s.reg .ip).toNat, by rw [State.setReg_reg_self, h]⟩

end Sys2Proof.Machine
end

