-- ==== Sys2Proof/Laws/PerInstr.lean ====
section
/-! SUPPORT. Statements about every instruction as syntax, one lemma per constructor. -/

namespace Sys2Proof.Laws.EncodeShape

/-- An instruction is well formed, and its encoding begins with its opcode byte and has its length
(`30_encoding.md` R50, R51). -/
def Statement (i : Instr) : Prop :=
  i.wellFormed = true ∧ (encode i).head? = some i.opcode.byte ∧ (encode i).length = i.length

theorem movLitReg (literal : Word) (regByte : Byte) : Statement (.movLitReg literal regByte) :=
  ⟨rfl, rfl, rfl⟩

theorem movRegReg (fromByte toByte : Byte) : Statement (.movRegReg fromByte toByte) :=
  ⟨rfl, rfl, rfl⟩

theorem movRegMem (fromByte : Byte) (address : Word) : Statement (.movRegMem fromByte address) :=
  ⟨rfl, rfl, rfl⟩

theorem movMemReg (address : Word) (toByte : Byte) : Statement (.movMemReg address toByte) :=
  ⟨rfl, rfl, rfl⟩

theorem addRegReg (reg1Byte reg2Byte : Byte) : Statement (.addRegReg reg1Byte reg2Byte) :=
  ⟨rfl, rfl, rfl⟩

theorem jmpNotEql (value address : Word) : Statement (.jmpNotEql value address) :=
  ⟨rfl, rfl, rfl⟩

end Sys2Proof.Laws.EncodeShape
end

