-- ==== Sys2Proof/Laws/Step.lean ====
section
/-! SUPPORT. What the operand fetches and a step can do, once (`40_cycle.md` R70 to R76): one equation per
opcode for fetches that stay inside memory, and the inversions that every whole-machine claim rests on. -/

namespace Sys2Proof.Machine

/-! ### The operand fetches of each format -/

/-- Two operands of formats `WB`, `BB`, `BW`, `WW`, fetched from `ip` on, are inside memory. -/
theorem State.operandsInBounds_pair {s : State} {a : Word} {w x : Width} :
    s.operandsInBounds a [w, x] = true ↔
      a.toNat + w.bytes ≤ s.size ∧ (a + BitVec.ofNat 16 w.bytes).toNat + x.bytes ≤ s.size := by
  simp [State.operandsInBounds]

@[simp] theorem State.operandsInBounds_atIp (s : State) (a b : Word) (ws : List Width) :
    (s.atIp a).operandsInBounds b ws = s.operandsInBounds b ws := by
  induction ws generalizing b with
  | nil => rfl
  | cons w rest ih => rw [State.operandsInBounds, ih]; rfl

theorem fetch_wb {s : State} (h : s.operandsInBounds s.ip [.w16, .w8] = true) :
    fetch16 s = .ok (beWord (s.byteAt s.ip) (s.byteAt (s.ip + 1)), s.atIp (s.ip + 2)) ∧
    fetch8 (s.atIp (s.ip + 2)) = .ok (s.byteAt (s.ip + 2), s.atIp (s.ip + 3)) := by
  obtain ⟨h1, h2⟩ := State.operandsInBounds_pair.mp h
  refine ⟨fetch16_inside h1, ?_⟩
  have h3 : (s.atIp (s.ip + 2)).ip.toNat + 1 ≤ (s.atIp (s.ip + 2)).size := by
    rw [State.ip_atIp, State.size_atIp]; exact h2
  rw [fetch8_inside h3]
  simp [BitVec.add_assoc]

theorem fetch_bb {s : State} (h : s.operandsInBounds s.ip [.w8, .w8] = true) :
    fetch8 s = .ok (s.byteAt s.ip, s.atIp (s.ip + 1)) ∧
    fetch8 (s.atIp (s.ip + 1)) = .ok (s.byteAt (s.ip + 1), s.atIp (s.ip + 2)) := by
  obtain ⟨h1, h2⟩ := State.operandsInBounds_pair.mp h
  refine ⟨fetch8_inside h1, ?_⟩
  have h3 : (s.atIp (s.ip + 1)).ip.toNat + 1 ≤ (s.atIp (s.ip + 1)).size := by
    rw [State.ip_atIp, State.size_atIp]; exact h2
  rw [fetch8_inside h3]
  simp [BitVec.add_assoc]

theorem fetch_bw {s : State} (h : s.operandsInBounds s.ip [.w8, .w16] = true) :
    fetch8 s = .ok (s.byteAt s.ip, s.atIp (s.ip + 1)) ∧
    fetch16 (s.atIp (s.ip + 1)) =
      .ok (beWord (s.byteAt (s.ip + 1)) (s.byteAt (s.ip + 2)), s.atIp (s.ip + 3)) := by
  obtain ⟨h1, h2⟩ := State.operandsInBounds_pair.mp h
  refine ⟨fetch8_inside h1, ?_⟩
  have h3 : (s.atIp (s.ip + 1)).ip.toNat + 2 ≤ (s.atIp (s.ip + 1)).size := by
    rw [State.ip_atIp, State.size_atIp]; exact h2
  rw [fetch16_inside h3]
  simp [BitVec.add_assoc]

theorem fetch_ww {s : State} (h : s.operandsInBounds s.ip [.w16, .w16] = true) :
    fetch16 s = .ok (beWord (s.byteAt s.ip) (s.byteAt (s.ip + 1)), s.atIp (s.ip + 2)) ∧
    fetch16 (s.atIp (s.ip + 2)) =
      .ok (beWord (s.byteAt (s.ip + 2)) (s.byteAt (s.ip + 3)), s.atIp (s.ip + 4)) := by
  obtain ⟨h1, h2⟩ := State.operandsInBounds_pair.mp h
  refine ⟨fetch16_inside h1, ?_⟩
  have h3 : (s.atIp (s.ip + 2)).ip.toNat + 2 ≤ (s.atIp (s.ip + 2)).size := by
    rw [State.ip_atIp, State.size_atIp]; exact h2
  rw [fetch16_inside h3]
  simp [BitVec.add_assoc]

/-! ### The operands of each opcode -/

theorem fetchOperands_movLitReg {s : State} (h : s.operandsInBounds s.ip [.w16, .w8] = true) :
    fetchOperands .movLitReg s =
      .ok (.movLitReg (beWord (s.byteAt s.ip) (s.byteAt (s.ip + 1))) (s.byteAt (s.ip + 2)),
        s.atIp (s.ip + 3)) := by
  obtain ⟨h1, h2⟩ := fetch_wb h
  simp only [fetchOperands, bind, Except.bind, h1, h2]
  rfl

theorem fetchOperands_movRegReg {s : State} (h : s.operandsInBounds s.ip [.w8, .w8] = true) :
    fetchOperands .movRegReg s =
      .ok (.movRegReg (s.byteAt s.ip) (s.byteAt (s.ip + 1)), s.atIp (s.ip + 2)) := by
  obtain ⟨h1, h2⟩ := fetch_bb h
  simp only [fetchOperands, bind, Except.bind, h1, h2]
  rfl

theorem fetchOperands_movRegMem {s : State} (h : s.operandsInBounds s.ip [.w8, .w16] = true) :
    fetchOperands .movRegMem s =
      .ok (.movRegMem (s.byteAt s.ip) (beWord (s.byteAt (s.ip + 1)) (s.byteAt (s.ip + 2))),
        s.atIp (s.ip + 3)) := by
  obtain ⟨h1, h2⟩ := fetch_bw h
  simp only [fetchOperands, bind, Except.bind, h1, h2]
  rfl

theorem fetchOperands_movMemReg {s : State} (h : s.operandsInBounds s.ip [.w16, .w8] = true) :
    fetchOperands .movMemReg s =
      .ok (.movMemReg (beWord (s.byteAt s.ip) (s.byteAt (s.ip + 1))) (s.byteAt (s.ip + 2)),
        s.atIp (s.ip + 3)) := by
  obtain ⟨h1, h2⟩ := fetch_wb h
  simp only [fetchOperands, bind, Except.bind, h1, h2]
  rfl

theorem fetchOperands_addRegReg {s : State} (h : s.operandsInBounds s.ip [.w8, .w8] = true) :
    fetchOperands .addRegReg s =
      .ok (.addRegReg (s.byteAt s.ip) (s.byteAt (s.ip + 1)), s.atIp (s.ip + 2)) := by
  obtain ⟨h1, h2⟩ := fetch_bb h
  simp only [fetchOperands, bind, Except.bind, h1, h2]
  rfl

theorem fetchOperands_jmpNotEql {s : State} (h : s.operandsInBounds s.ip [.w16, .w16] = true) :
    fetchOperands .jmpNotEql s =
      .ok (.jmpNotEql (beWord (s.byteAt s.ip) (s.byteAt (s.ip + 1)))
        (beWord (s.byteAt (s.ip + 2)) (s.byteAt (s.ip + 3))), s.atIp (s.ip + 4)) := by
  obtain ⟨h1, h2⟩ := fetch_ww h
  simp only [fetchOperands, bind, Except.bind, h1, h2]
  rfl

/-- Operand fetches inside memory give an instruction of the opcode and move `ip` past it, and change
nothing else. -/
theorem fetchOperands_inside {o : Opcode} {s : State} (h : s.operandsInBounds s.ip o.format.widths = true) :
    ∃ i, i.opcode = o ∧ fetchOperands o s = .ok (i, s.atIp (s.ip + BitVec.ofNat 16 (o.length - 1))) := by
  cases o with
  | movLitReg => exact ⟨_, rfl, fetchOperands_movLitReg h⟩
  | movRegReg => exact ⟨_, rfl, fetchOperands_movRegReg h⟩
  | movRegMem => exact ⟨_, rfl, fetchOperands_movRegMem h⟩
  | movMemReg => exact ⟨_, rfl, fetchOperands_movMemReg h⟩
  | addRegReg => exact ⟨_, rfl, fetchOperands_addRegReg h⟩
  | jmpNotEql => exact ⟨_, rfl, fetchOperands_jmpNotEql h⟩

/-- Two operands of which one leaves memory: the first that does is named by the address at which it
should have been read. -/
theorem operandsInBounds_pair_false {s : State} {a : Word} {w x : Width}
    (h : s.operandsInBounds a [w, x] ≠ true) :
    s.size < a.toNat + w.bytes ∨
    (a.toNat + w.bytes ≤ s.size ∧ s.size < (a + BitVec.ofNat 16 w.bytes).toNat + x.bytes) := by
  rcases Nat.lt_or_ge s.size (a.toNat + w.bytes) with h1 | h1
  · exact .inl h1
  · refine .inr ⟨h1, ?_⟩
    by_contra h2
    exact h (State.operandsInBounds_pair.mpr ⟨h1, by omega⟩)

/-- Operand fetches that leave memory fault at the first operand outside it, with `ip` at that operand and
nothing else changed (`60_exceptions.md` R126). -/
theorem fetchOperands_outside {o : Opcode} {s : State} (h : s.operandsInBounds s.ip o.format.widths ≠ true) :
    ∃ a w, s.size < a.toNat + w.bytes ∧ fetchOperands o s = .error (.boundsViolation a w .read (s.atIp a)) := by
  have second8 : ∀ {a : Word}, s.size < a.toNat + 1 →
      fetch8 (s.atIp a) = .error (.boundsViolation a .w8 .read (s.atIp a)) := by
    intro a ha
    have := fetch8_outside (s := s.atIp a) (by simpa using ha)
    simpa using this
  have second16 : ∀ {a : Word}, s.size < a.toNat + 2 →
      fetch16 (s.atIp a) = .error (.boundsViolation a .w16 .read (s.atIp a)) := by
    intro a ha
    have := fetch16_outside (s := s.atIp a) (by simpa using ha)
    simpa using this
  have self : s.atIp s.ip = s := s.atIp_self
  cases o with
  | movLitReg =>
    rcases operandsInBounds_pair_false h with h1 | ⟨h1, h2⟩
    · exact ⟨s.ip, .w16, h1, by simp [fetchOperands, bind, Except.bind, fetch16_outside h1, self]⟩
    · exact ⟨s.ip + 2, .w8, h2, by
        simp only [fetchOperands, bind, Except.bind, fetch16_inside h1, second8 (a := s.ip + 2) h2]⟩
  | movRegReg =>
    rcases operandsInBounds_pair_false h with h1 | ⟨h1, h2⟩
    · exact ⟨s.ip, .w8, h1, by simp [fetchOperands, bind, Except.bind, fetch8_outside h1, self]⟩
    · exact ⟨s.ip + 1, .w8, h2, by
        simp only [fetchOperands, bind, Except.bind, fetch8_inside h1, second8 (a := s.ip + 1) h2]⟩
  | movRegMem =>
    rcases operandsInBounds_pair_false h with h1 | ⟨h1, h2⟩
    · exact ⟨s.ip, .w8, h1, by simp [fetchOperands, bind, Except.bind, fetch8_outside h1, self]⟩
    · exact ⟨s.ip + 1, .w16, h2, by
        simp only [fetchOperands, bind, Except.bind, fetch8_inside h1, second16 (a := s.ip + 1) h2]⟩
  | movMemReg =>
    rcases operandsInBounds_pair_false h with h1 | ⟨h1, h2⟩
    · exact ⟨s.ip, .w16, h1, by simp [fetchOperands, bind, Except.bind, fetch16_outside h1, self]⟩
    · exact ⟨s.ip + 2, .w8, h2, by
        simp only [fetchOperands, bind, Except.bind, fetch16_inside h1, second8 (a := s.ip + 2) h2]⟩
  | addRegReg =>
    rcases operandsInBounds_pair_false h with h1 | ⟨h1, h2⟩
    · exact ⟨s.ip, .w8, h1, by simp [fetchOperands, bind, Except.bind, fetch8_outside h1, self]⟩
    · exact ⟨s.ip + 1, .w8, h2, by
        simp only [fetchOperands, bind, Except.bind, fetch8_inside h1, second8 (a := s.ip + 1) h2]⟩
  | jmpNotEql =>
    rcases operandsInBounds_pair_false h with h1 | ⟨h1, h2⟩
    · exact ⟨s.ip, .w16, h1, by simp [fetchOperands, bind, Except.bind, fetch16_outside h1, self]⟩
    · exact ⟨s.ip + 2, .w16, h2, by
        simp only [fetchOperands, bind, Except.bind, fetch16_inside h1, second16 (a := s.ip + 2) h2]⟩

/-! ### One step -/

theorem step_opcode_outside {s : State} (h : s.size < s.ip.toNat + 1) :
    step s = .fault (.boundsViolation s.ip .w8 .read s) := by
  simp [step, fetchAndExecute, fetch8_outside h]

theorem step_opcode_inside {s : State} (h : s.ip.toNat + 1 ≤ s.size) :
    step s = execute (s.byteAt s.ip) (s.atIp (s.ip + 1)) := by
  simp [step, fetchAndExecute, fetch8_inside h]

theorem step_unknown {s : State} (h : s.ip.toNat + 1 ≤ s.size) (ho : Opcode.ofByte (s.byteAt s.ip) = none) :
    step s = .fault (.unknownInstruction (s.byteAt s.ip) (s.atIp (s.ip + 1))) := by
  rw [step_opcode_inside h]
  simp [execute, fetchInstr, ho, raise]

theorem step_operands_ok {s t : State} {o : Opcode} {i : Instr} (h : s.ip.toNat + 1 ≤ s.size)
    (ho : Opcode.ofByte (s.byteAt s.ip) = some o)
    (hf : fetchOperands o (s.atIp (s.ip + 1)) = .ok (i, t)) : step s = exec i t := by
  rw [step_opcode_inside h]
  simp only [execute, fetchInstr, ho, hf]

theorem step_operands_error {s : State} {o : Opcode} {f : Fault} (h : s.ip.toNat + 1 ≤ s.size)
    (ho : Opcode.ofByte (s.byteAt s.ip) = some o)
    (hf : fetchOperands o (s.atIp (s.ip + 1)) = .error f) : step s = .fault f := by
  rw [step_opcode_inside h]
  simp only [execute, fetchInstr, ho, hf]

/-- Everything a step can be: the opcode outside memory, an invalid opcode, an operand outside memory, or the
effect of an instruction whose bytes were fetched, from the state in which only `ip` has moved past it. -/
theorem step_cases (s : State) :
    (s.size < s.ip.toNat + 1 ∧ step s = .fault (.boundsViolation s.ip .w8 .read s)) ∨
    (s.ip.toNat + 1 ≤ s.size ∧ Opcode.ofByte (s.byteAt s.ip) = none ∧
      step s = .fault (.unknownInstruction (s.byteAt s.ip) (s.atIp (s.ip + 1)))) ∨
    (∃ o a w, s.ip.toNat + 1 ≤ s.size ∧ Opcode.ofByte (s.byteAt s.ip) = some o ∧
      s.size < a.toNat + w.bytes ∧
      fetchOperands o (s.atIp (s.ip + 1)) = .error (.boundsViolation a w .read (s.atIp a)) ∧
      step s = .fault (.boundsViolation a w .read (s.atIp a))) ∨
    (∃ i, s.fetchable i.opcode = true ∧ Opcode.ofByte (s.byteAt s.ip) = some i.opcode ∧
      fetchOperands i.opcode (s.atIp (s.ip + 1)) = .ok (i, s.atIp (s.ip + BitVec.ofNat 16 i.length)) ∧
      step s = exec i (s.atIp (s.ip + BitVec.ofNat 16 i.length))) := by
  rcases Nat.lt_or_ge s.size (s.ip.toNat + 1) with hb | hb
  · exact .inl ⟨hb, step_opcode_outside hb⟩
  · cases ho : Opcode.ofByte (s.byteAt s.ip) with
    | none => exact .inr (.inl ⟨hb, rfl, step_unknown hb ho⟩)
    | some o =>
      by_cases hin : (s.atIp (s.ip + 1)).operandsInBounds (s.atIp (s.ip + 1)).ip o.format.widths = true
      · obtain ⟨i, hi, hf⟩ := fetchOperands_inside hin
        have hlen : s.ip + 1 + BitVec.ofNat 16 (o.length - 1) = s.ip + BitVec.ofNat 16 i.length := by
          rw [BitVec.add_assoc, Instr.length, hi]
          cases o <;> rfl
        rw [State.ip_atIp, State.atIp_atIp, hlen] at hf
        refine .inr (.inr (.inr ⟨i, ?_, by rw [hi], by rw [hi]; exact hf, step_operands_ok hb ho hf⟩))
        have hin' : s.operandsInBounds (s.ip + 1) o.format.widths = true := by
          rwa [State.operandsInBounds_atIp, State.ip_atIp] at hin
        rw [hi]
        show s.operandsInBounds s.ip (.w8 :: o.format.widths) = true
        rw [State.operandsInBounds, Bool.and_eq_true]
        exact ⟨decide_eq_true hb, hin'⟩
      · obtain ⟨a, w, hlt, hf⟩ := fetchOperands_outside hin
        rw [State.atIp_atIp] at hf
        exact .inr (.inr (.inl ⟨o, a, w, hb, rfl, hlt, hf, step_operands_error hb ho hf⟩))

/-- A step that completes has run the effect of an instruction whose bytes were fetched. -/
theorem step_next {s t : State} (h : step s = .next t) :
    ∃ i, s.fetchable i.opcode = true ∧ Opcode.ofByte (s.byteAt s.ip) = some i.opcode ∧
      fetchOperands i.opcode (s.atIp (s.ip + 1)) = .ok (i, s.atIp (s.ip + BitVec.ofNat 16 i.length)) ∧
      exec i (s.atIp (s.ip + BitVec.ofNat 16 i.length)) = .next t := by
  rcases step_cases s with ⟨_, hs⟩ | ⟨_, _, hs⟩ | ⟨_, _, _, _, _, _, _, hs⟩ | ⟨i, hf, ho, hok, hs⟩
  · rw [hs] at h; cases h
  · rw [hs] at h; cases h
  · rw [hs] at h; cases h
  · exact ⟨i, hf, ho, hok, by rw [← hs, h]⟩

end Sys2Proof.Machine
end

