-- ==== Sys2Proof/Tests/Slice0.lean ====
section
/-! SUPPORT. Tests whose expected results are the spec's own (`95_test_vectors.md`, named by their ids, and
words written out from `30_encoding.md` R52 and R53), and for every obligation with hypotheses a state and
operands that meet them, at the boundaries of its clauses. -/

open Sys2Proof Sys2Proof.Machine

namespace Sys2Proof.Tests

/-! ### Helpers -/

/-- A memory size for a test; the reset size where the number is none. -/
def sized (n : Nat) : MemSize :=
  if h : 1 ≤ n ∧ n ≤ Config.maxMemSize then ⟨n, h.1, h.2⟩ else MemSize.reset

/-- A small state: `size` bytes of memory, code from `at_` on with `ip` there, `acc`, `r1`, `r2`, `r3`. -/
def st (size at_ : Nat) (code : List Byte) (acc r1 r2 r3 : Word := 0) : State :=
  ⟨{ Regs.zero with ip := BitVec.ofNat 16 at_, acc := acc, r1 := r1, r2 := r2, r3 := r3 },
    (Memory.blank (sized size)).load at_ code⟩

/-- The same with further bytes of memory. -/
def stWith (s : State) (base : Nat) (bytes : List Byte) : State := { s with mem := s.mem.load base bytes }

/-- The register and `ip` after a step that completes. -/
def after (s : State) (n : RegName) : Option (Word × Word) := (nextOf (step s)).map (fun t => (t.reg n, t.ip))

/-- The byte of memory and the next one after a step that completes. -/
def stored (s : State) (a : Nat) : Option (Byte × Byte) :=
  (nextOf (step s)).map (fun t => (t.mem.byte a, t.mem.byte (a + 1)))

/-- The `BoundsViolation` of a step, with the `ip` it leaves. -/
def bounds (s : State) : Option (Word × Width × AccessKind × Word) :=
  match step s with
  | .fault (.boundsViolation a w k t) => some (a, w, k, t.ip)
  | _ => none

/-- The `UnknownInstruction` of a step, with the `ip` it leaves. -/
def unknown (s : State) : Option (Byte × Word) :=
  match step s with
  | .fault (.unknownInstruction op t) => some (op, t.ip)
  | _ => none

theorem next_of {o : Host.Outcome State Fault Refusal} (h : (nextOf o).isSome = true) : ∃ t, o = .next t := by
  cases o with
  | next t => exact ⟨t, rfl⟩
  | fault f => cases h
  | refused r => cases h

theorem fault_of {o : Host.Outcome State Fault Refusal} (h : (faultOf o).isSome = true) : ∃ f, o = .fault f := by
  cases o with
  | next t => cases h
  | fault f => exact ⟨f, rfl⟩
  | refused r => cases h

theorem bounds_of {s : State} (h : (bounds s).isSome = true) :
    ∃ a w k t, step s = .fault (.boundsViolation a w k t) := by
  unfold bounds at h
  split at h
  · exact ⟨_, _, _, _, by assumption⟩
  · cases h

theorem unknown_of {s : State} (h : (unknown s).isSome = true) :
    ∃ op t, step s = .fault (.unknownInstruction op t) := by
  unfold unknown at h
  split at h
  · exact ⟨_, _, by assumption⟩
  · cases h

/-! ### Well-formedness: what the checks refuse -/

/-- R57: `0x0C` selects `r1` and is not its canonical byte; `0x09` is canonical and `0x0A` is not. -/
theorem test_canonicalByte :
    canonicalByte 0x02 = true ∧ canonicalByte 0x09 = true ∧ canonicalByte 0x0A = false ∧
      canonicalByte 0x0C = false := by decide

/-- R62: an instruction with a register byte an assembler would not emit, for each register operand. -/
theorem test_canonical_refuses :
    (Instr.movLitReg 0 0x0C).canonical = false ∧ (Instr.movRegReg 0x0A 0x02).canonical = false ∧
    (Instr.movRegReg 0x02 0x0A).canonical = false ∧ (Instr.movRegMem 0xFF 0).canonical = false ∧
    (Instr.movMemReg 0 0xFF).canonical = false ∧ (Instr.addRegReg 0x14 0x02).canonical = false ∧
    (Instr.addRegReg 0x02 0x14).canonical = false ∧ (Instr.movRegReg 0x00 0x09).canonical = true := by decide

/-- R5 and decision D2: no memory of 0 bytes and none beyond 65536. -/
theorem test_memSizeOk :
    memSizeOk 0 = false ∧ memSizeOk 1 = true ∧ memSizeOk 65536 = true ∧ memSizeOk 65537 = false := by decide

/-- R59: no operand value is refused, the extremes included. -/
theorem test_wellFormed :
    (Instr.movLitReg 0xFFFF 0xFF).wellFormed = true ∧ (Instr.jmpNotEql 0xFFFF 0xFFFF).wellFormed = true := by
  decide

/-! ### Decoding: words written out from R52 and R53 -/

/-- `WB`: opcode, `w[15:8]`, `w[7:0]`, `rb`. -/
theorem test_decode_movLitReg :
    decode [0b00010000, 0b00010010, 0b00110100, 0b00000010] = .instr (.movLitReg 0x1234 0x02) [] := by decide

/-- `BB`: opcode, `ra`, `rb`. -/
theorem test_decode_movRegReg :
    decode [0b00010001, 0b00000001, 0b00001001] = .instr (.movRegReg 0x01 0x09) [] := by decide

/-- `BW`: opcode, `ra`, `w[15:8]`, `w[7:0]`. -/
theorem test_decode_movRegMem :
    decode [0b00010010, 0b00000010, 0b00000001, 0b10000001] = .instr (.movRegMem 0x02 0x0181) [] := by decide

/-- `WB` again: the address comes first. -/
theorem test_decode_movMemReg :
    decode [0b00010011, 0b00000001, 0b00000000, 0b00000100] = .instr (.movMemReg 0x0100 0x04) [] := by decide

theorem test_decode_addRegReg :
    decode [0b00010100, 0b00001100, 0b00010111] = .instr (.addRegReg 0x0C 0x17) [] := by decide

/-- `WW`: the value first, then the target. -/
theorem test_decode_jmpNotEql :
    decode [0b00010101, 0b10000000, 0b00000101, 0b00000000, 0b01000000] = .instr (.jmpNotEql 0x8005 0x0040) [] := by
  decide

/-- R58 at both sides of the range (U2, U3), and a cut instruction. -/
theorem test_decode_rejects :
    decode [0x0F, 0, 0, 0, 0] = .unknownInstruction 0x0F ∧ decode [0x16, 0, 0, 0, 0] = .unknownInstruction 0x16 ∧
    decode [0x15, 0, 0, 0] = .truncated ∧ decode [] = .truncated := by decide

/-- R52: a table word is a big-endian bit string with the opcode in its top byte, for each length. -/
theorem test_decodeTableWord :
    decodeTableWord 32 0x10123402 = some (.movLitReg 0x1234 0x02) ∧
    decodeTableWord 24 0x110203 = some (.movRegReg 0x02 0x03) ∧
    decodeTableWord 32 0x12010100 = some (.movRegMem 0x01 0x0100) ∧
    decodeTableWord 40 0x15000A0040 = some (.jmpNotEql 0x000A 0x0040) ∧
    decodeTableWord 32 0x16000000 = none := by decide

/-! ### One step per instruction: vectors of `95_test_vectors.md` -/

/-- V3: the alias byte `FF` is `r4`. -/
theorem test_movLitReg_alias : after (st 256 0 [0x10, 0xAB, 0xCD, 0xFF]) .r4 = some (0xABCD, 0x0004) := by decide

/-- V7: the register byte is outside memory. -/
theorem test_movLitReg_fault : bounds (st 4 1 [0x10, 0x12, 0x34]) = some (0x0004, .w8, .read, 0x0004) := by decide

/-- V9: `ip` as a source is the next instruction's address. -/
theorem test_movRegReg_ip : after (st 256 0x10 [0x11, 0x00, 0x09]) .r8 = some (0x0013, 0x0013) := by decide

/-- V10: `ip` as a destination jumps. -/
theorem test_movRegReg_jump : after (st 256 0 [0x11, 0x02, 0x00] 0 0x0040) .r1 = some (0x0040, 0x0040) := by decide

/-- V14: big-endian, at an odd address. -/
theorem test_movRegMem_odd : stored (st 256 0 [0x12, 0x02, 0x00, 0x81] 0 0xCAFE) 0x81 = some (0xCA, 0xFE) := by
  decide

/-- V17: no partial store at the end of memory. -/
theorem test_movRegMem_fault :
    bounds (st 256 0 [0x12, 0x02, 0x00, 0xFF] 0 0xCAFE) = some (0x00FF, .w16, .write, 0x0004) ∧
    (stateAfterStep (st 256 0 [0x12, 0x02, 0x00, 0xFF] 0 0xCAFE)).mem.byte 0xFF = 0x00 := by decide

/-- V21. -/
theorem test_movMemReg_load :
    after (stWith (st 512 0 [0x13, 0x01, 0x00, 0x04]) 0x100 [0xBE, 0x01]) .r3 = some (0xBE01, 0x0004) := by decide

/-- V25: the second byte is outside memory. -/
theorem test_movMemReg_fault :
    bounds (st 256 0 [0x13, 0x00, 0xFF, 0x02]) = some (0x00FF, .w16, .read, 0x0004) := by decide

/-- A2: the largest sum. -/
theorem test_addRegReg_wraps :
    after (st 256 0 [0x14, 0x02, 0x03] 0 0xFFFF 0xFFFF) .acc = some (0xFFFE, 0x0003) := by decide

/-- A10: `acc` as an addend is read before it is written. -/
theorem test_addRegReg_acc :
    after (st 256 0 [0x14, 0x01, 0x02] 0x0010 0x0005) .acc = some (0x0015, 0x0003) := by decide

/-- J5: the values differ in bit 15 only. -/
theorem test_jmpNotEql_taken :
    after (st 256 0 [0x15, 0x80, 0x05, 0x00, 0x40] 0x0005) .acc = some (0x0005, 0x0040) := by decide

/-- J2. -/
theorem test_jmpNotEql_notTaken :
    after (st 256 0 [0x15, 0x00, 0x0A, 0x00, 0x00] 0x000A) .acc = some (0x000A, 0x0005) := by decide

/-! ### The machine: faults, the top of memory, traces, the host -/

/-- U4: an invalid opcode at the last byte. -/
theorem test_unknown_last : unknown (st 256 0xFF [0xFF]) = some (0xFF, 0x0100) := by decide

/-- U6: an opcode fetch outside memory changes nothing. -/
theorem test_fetch_outside : bounds (st 256 0x100 []) = some (0x0100, .w8, .read, 0x0100) := by decide

/-- W1: an instruction across the top of a full memory. -/
theorem test_wrap :
    after (stWith (st 65536 0xFFFF [0x11] 0 0x0077) 0 [0x02, 0x03]) .r2 = some (0x0077, 0x0002) := by decide

/-- W2: a 16-bit operand does not straddle the top. -/
theorem test_no_straddle : bounds (st 65536 0xFFFE [0x10]) = some (0xFFFF, .w16, .read, 0xFFFF) := by decide

/-- T2: the transactions of a store. -/
theorem test_trace_store :
    stepAccesses (st 256 0 [0x12, 0x02, 0x00, 0x81] 0 0xCAFE) =
      [⟨.read, 0x0000, .w8, some 0x12⟩, ⟨.read, 0x0001, .w8, some 0x02⟩, ⟨.read, 0x0002, .w16, some 0x0081⟩,
        ⟨.write, 0x0081, .w16, some 0xCAFE⟩] := by decide

/-- S1: values are reduced modulo 65536 at the port. -/
theorem test_setRegister :
    (setRegister "r3" 0x12345 State.reset).toOption.map (fun p => (p.1, p.2.reg .r3)) =
      some (0x2345, 0x2345) := by decide

/-- R107: a host write of 16 bits is big-endian, whatever its offset. -/
theorem test_hostSet :
    ((Memory.blank (sized 4)).hostSet 1 .w16 0xCAFE).map (fun m => (m.byte 1, m.byte 2, m.hostGet 1 .w16)) =
      some (0xCA, 0xFE, some 0xCAFE) := by decide

/-- S2: names outside the table, and the comparison is exact. -/
theorem test_unknownRegister :
    RegName.ofName "r9" = none ∧ RegName.ofName "r0" = none ∧ RegName.ofName "IP" = none := by decide

/-- The table of section 2.9. -/
theorem test_regOf :
    [0x00, 0x01, 0x02, 0x09, 0x0A, 0x0B, 0x10, 0x13, 0x14, 0x63, 0x64, 0x80, 0xF9, 0xFA, 0xFF].map
      (fun n => regOf (BitVec.ofNat 8 n)) =
      [.ip, .acc, .r1, .r8, .ip, .acc, .r5, .r8, .ip, .r8, .ip, .r7, .r8, .ip, .r4] := by decide

/-- Two lines of the listing of R62. -/
theorem test_listing :
    listInstr (.movRegMem 0x01 0x0100) = "MOV_REG_MEM acc, 0x0100" ∧
    listInstr (.movRegReg 0x0C 0x09) = "MOV_REG_REG #0x0C, r8" := by decide

/-- The word placed for the host runs from reset. -/
theorem test_withFetchWord :
    after (State.reset.withFetchWord 40 0x150001ABCD) .acc = some (0x0000, 0xABCD) := by decide

/-! ### Witnesses: the hypotheses of every obligation that has some are met -/

theorem witness_OpcodeByteSelectsInstruction : (0x0F : Byte).toNat < 0x10 ∧ 0x15 < (0x16 : Byte).toNat := by decide

theorem witness_DecodeReadsBackEncode : (Instr.jmpNotEql 0xFFFF 0x8001).wellFormed = true := by decide

theorem witness_DecodedBytesAreTheEncoding :
    decode [0x14, 0xFF, 0x00, 0xAA] = .instr (.addRegReg 0xFF 0x00) [0xAA] := by decide

theorem witness_RegisterByteIsReducedModuloTen :
    (0xFF : Byte).toNat % 10 = (0x05 : Byte).toNat % 10 ∧ (0xFA : Byte).toNat % 10 = (0x00 : Byte).toNat % 10 := by
  decide

/-- A store and a load that end at the last byte of memory, and one of each that faults. -/
theorem witness_RegisterByteIsReducedModuloTen_data :
    (0x00FE : Word).toNat + 2 ≤ (st 256 0 []).size ∧
    (∃ f, exec (.movRegMem 0xFF 0x00FF) (st 256 0 []) = .fault f) ∧
    ∃ f, exec (.movMemReg 0x00FF 0xFF) (st 256 0 []) = .fault f :=
  ⟨by decide, fault_of (by decide), fault_of (by decide)⟩

/-- An access that ends at the last byte of memory, and an operand there. -/
theorem witness_SixteenBitAccessIsBigEndian :
    (0x00FE : Word).toNat + 2 ≤ (st 256 0xFE []).size ∧
      (st 256 0xFE []).ip.toNat + 2 ≤ (st 256 0xFE []).size := by decide

/-- Two stores, the second ending at the last byte of memory. -/
theorem witness_OverlappingStoresShareOneByte :
    ∃ t u, memWrite16 0x00FD 0xCAFE (st 256 0 []) = .ok t ∧ memWrite16 (0x00FD + 1) 0x1234 t = .ok u :=
  ⟨_, _, memWrite16_inside _ (by decide), memWrite16_inside _ (by decide)⟩

/-- The last access inside and the first outside, for each width. -/
theorem witness_AccessOutsideMemoryMovesNothing :
    (0x00FF : Word).toNat + 1 ≤ (st 256 0 []).size ∧ (st 256 0 []).size < (0x0100 : Word).toNat + 1 ∧
    (0x00FE : Word).toNat + 2 ≤ (st 256 0 []).size ∧ (st 256 0 []).size < (0x00FF : Word).toNat + 2 := by decide

theorem witness_TopOfAddressSpace :
    (st 65536 0xFFFF []).ip = 0xFFFF ∧ (st 65536 0xFFFF []).size = 65536 ∧
    (st 65535 0xFFFF []).ip = 0xFFFF ∧ (st 65535 0xFFFF []).size < 65536 := by decide

/-- Two memories built by different stores: one value overwritten, and one never stored. -/
theorem witness_CanonicalMemoriesAreEqualData :
    let m := ((Memory.blank (sized 4)).setByte 3 0x11).setByte 0 0x22
    let m' := (((Memory.blank (sized 4)).setByte 0 0x22).setByte 2 0x33).setWord 2 0x0011
    m.wf ∧ m'.wf ∧ m.size = m'.size ∧ ∀ a, a < m.size.val → m.byte a = m'.byte a := by decide

theorem witness_FetchReadsThenAdvances :
    (st 256 0xFF []).ip.toNat + 1 ≤ (st 256 0xFF []).size ∧ (st 256 0x100 []).size < (st 256 0x100 []).ip.toNat + 1 ∧
    (st 256 0xFE []).ip.toNat + 2 ≤ (st 256 0xFE []).size ∧
    (st 256 0xFF []).size < (st 256 0xFF []).ip.toNat + 2 := by decide

/-- An instruction whose last byte is the last byte of memory. -/
theorem witness_StepRunsTheDecodedInstruction :
    ∃ rest, decode ((st 256 0xFC [0x10, 0x12, 0x34, 0x02]).bytesFrom 5 (st 256 0xFC [0x10, 0x12, 0x34, 0x02]).ip) =
        .instr (.movLitReg 0x1234 0x02) rest ∧
      (Instr.movLitReg 0x1234 0x02).wellFormed = true ∧
      (st 256 0xFC [0x10, 0x12, 0x34, 0x02]).fetchable .movLitReg = true :=
  ⟨[0x00], by decide⟩

theorem witness_StepRunsTheEncodedInstruction :
    (st 256 0xFC [0x10, 0x12, 0x34, 0x02]).codeAtIp (.movLitReg 0x1234 0x02) := by
  constructor <;> decide

/-- An invalid opcode on either side of the range, in the last byte of memory. -/
theorem witness_InvalidOpcodeFaultsPastItsByte :
    (st 256 0xFF [0x0F]).ip.toNat + 1 ≤ (st 256 0xFF [0x0F]).size ∧
    ((st 256 0xFF [0x0F]).byteAt (st 256 0xFF [0x0F]).ip).toNat < 0x10 ∧
    (st 256 0xFF [0x16]).ip.toNat + 1 ≤ (st 256 0xFF [0x16]).size ∧
    0x15 < ((st 256 0xFF [0x16]).byteAt (st 256 0xFF [0x16]).ip).toNat := by decide

/-- What the three clauses of a step on two operands ask, for an opcode at `a` in `s`, the operands at `a + 1`
and `b` with their widths: the first is outside, or the second is, or neither. -/
def opcodeAt (s : State) (a : Word) (op : Byte) : Bool :=
  decide (s.ip = a) && decide (a.toNat + 1 ≤ s.size) && decide (s.byteAt a = op)

/-- The path: 1 the first operand is outside memory, 2 the second, 3 neither. -/
def pathOf (s : State) (a : Word) (w v : Nat) : Nat :=
  if s.size < (a + 1).toNat + w then 1
  else if s.size < (a + 1 + BitVec.ofNat 16 w).toNat + v then 2 else 3

/-- Each path at the last size that takes it, and the complete instruction ending at the end of memory. -/
theorem witness_StepMovLitReg :
    (opcodeAt (st 2 0 [0x10, 0x12]) 0 0x10 && pathOf (st 2 0 [0x10, 0x12]) 0 2 1 == 1 &&
     opcodeAt (st 3 0 [0x10, 0x12, 0x34]) 0 0x10 && pathOf (st 3 0 [0x10, 0x12, 0x34]) 0 2 1 == 2 &&
     opcodeAt (st 4 0 [0x10, 0x12, 0x34, 0x02]) 0 0x10 && pathOf (st 4 0 [0x10, 0x12, 0x34, 0x02]) 0 2 1 == 3) =
      true := by decide

theorem witness_StepMovLitReg_dest :
    regOf ((st 4 0 [0x10, 0x12, 0x34, 0x02]).byteAt 3) ≠ .ip := by decide

theorem witness_StepMovRegReg :
    (opcodeAt (st 1 0 [0x11]) 0 0x11 && pathOf (st 1 0 [0x11]) 0 1 1 == 1 &&
     opcodeAt (st 2 0 [0x11, 0x00]) 0 0x11 && pathOf (st 2 0 [0x11, 0x00]) 0 1 1 == 2 &&
     opcodeAt (st 3 0 [0x11, 0x00, 0x09]) 0 0x11 && pathOf (st 3 0 [0x11, 0x00, 0x09]) 0 1 1 == 3) = true := by
  decide

/-- The two data paths: the store ends at the last byte of memory, or one byte beyond. -/
theorem witness_StepMovRegMem :
    (opcodeAt (st 1 0 [0x12]) 0 0x12 && pathOf (st 1 0 [0x12]) 0 1 2 == 1 &&
     opcodeAt (st 3 0 [0x12, 0x02, 0x00]) 0 0x12 && pathOf (st 3 0 [0x12, 0x02, 0x00]) 0 1 2 == 2 &&
     opcodeAt (st 256 0 [0x12, 0x02, 0x00, 0xFF]) 0 0x12 && pathOf (st 256 0 [0x12, 0x02, 0x00, 0xFF]) 0 1 2 == 3) =
      true ∧
    (st 256 0 [0x12, 0x02, 0x00, 0xFF]).size < ((st 256 0 [0x12, 0x02, 0x00, 0xFF]).wordAt 2).toNat + 2 ∧
    ((st 256 0 [0x12, 0x02, 0x00, 0xFE]).wordAt 2).toNat + 2 ≤ (st 256 0 [0x12, 0x02, 0x00, 0xFE]).size ∧
    (opcodeAt (st 256 0 [0x12, 0x02, 0x00, 0xFE]) 0 0x12 && pathOf (st 256 0 [0x12, 0x02, 0x00, 0xFE]) 0 1 2 == 3) =
      true := by decide

theorem witness_StepMovMemReg :
    (opcodeAt (st 2 0 [0x13, 0x00]) 0 0x13 && pathOf (st 2 0 [0x13, 0x00]) 0 2 1 == 1 &&
     opcodeAt (st 3 0 [0x13, 0x00, 0x00]) 0 0x13 && pathOf (st 3 0 [0x13, 0x00, 0x00]) 0 2 1 == 2 &&
     opcodeAt (st 256 0 [0x13, 0x00, 0xFF, 0x02]) 0 0x13 && pathOf (st 256 0 [0x13, 0x00, 0xFF, 0x02]) 0 2 1 == 3) =
      true ∧
    (st 256 0 [0x13, 0x00, 0xFF, 0x02]).size < ((st 256 0 [0x13, 0x00, 0xFF, 0x02]).wordAt 1).toNat + 2 ∧
    ((st 256 0 [0x13, 0x00, 0xFE, 0x02]).wordAt 1).toNat + 2 ≤ (st 256 0 [0x13, 0x00, 0xFE, 0x02]).size ∧
    (opcodeAt (st 256 0 [0x13, 0x00, 0xFE, 0x02]) 0 0x13 && pathOf (st 256 0 [0x13, 0x00, 0xFE, 0x02]) 0 2 1 == 3) =
      true := by decide

theorem witness_StepAddRegReg :
    (opcodeAt (st 1 0 [0x14]) 0 0x14 && pathOf (st 1 0 [0x14]) 0 1 1 == 1 &&
     opcodeAt (st 2 0 [0x14, 0x02]) 0 0x14 && pathOf (st 2 0 [0x14, 0x02]) 0 1 1 == 2 &&
     opcodeAt (st 3 0 [0x14, 0x02, 0x03]) 0 0x14 && pathOf (st 3 0 [0x14, 0x02, 0x03]) 0 1 1 == 3) = true := by
  decide

/-- The three paths, and on the last the jump taken and not taken. -/
theorem witness_StepJmpNotEql :
    (opcodeAt (st 2 0 [0x15, 0x00]) 0 0x15 && pathOf (st 2 0 [0x15, 0x00]) 0 2 2 == 1 &&
     opcodeAt (st 4 0 [0x15, 0x00, 0x01, 0x00]) 0 0x15 && pathOf (st 4 0 [0x15, 0x00, 0x01, 0x00]) 0 2 2 == 2 &&
     opcodeAt (st 5 0 [0x15, 0x00, 0x0A, 0x00, 0x00] 0x0005) 0 0x15 &&
     pathOf (st 5 0 [0x15, 0x00, 0x0A, 0x00, 0x00] 0x0005) 0 2 2 == 3) = true ∧
    (st 5 0 [0x15, 0x00, 0x0A, 0x00, 0x00] 0x0005).wordAt 1 ≠
      (st 5 0 [0x15, 0x00, 0x0A, 0x00, 0x00] 0x0005).reg .acc ∧
    (st 5 0 [0x15, 0x00, 0x0A, 0x00, 0x00] 0x000A).wordAt 1 =
      (st 5 0 [0x15, 0x00, 0x0A, 0x00, 0x00] 0x000A).reg .acc := by decide

/-- The last store inside memory and the first outside. -/
theorem witness_StoreCompletes :
    (0x00FE : Word).toNat + 2 ≤ (st 256 0 []).size ∧ (st 256 0 []).size < (0x00FF : Word).toNat + 2 := by decide

theorem witness_LoadCompletes :
    (0xFFFE : Word).toNat + 2 ≤ (st 65536 0 []).size ∧ (st 65536 0 []).size < (0xFFFF : Word).toNat + 2 := by decide

/-- Values that differ in bit 15 alone, and equal values. -/
theorem witness_JumpCompletes :
    (0x8005 : Word).getLsbD 15 ≠ ((st 256 0 [] 0x0005).reg .acc).getLsbD 15 ∧
      (0x0005 : Word) = (st 256 0 [] 0x0005).reg .acc := by decide

theorem witness_StoreThenLoadCopiesTheRegister :
    ∃ t, exec (.movRegMem 0x02 0x00FE) (st 256 0 [] 0 0xCAFE) = .next t := next_of (by decide)

/-- Each idiom's bytes, ending at the last byte of memory; for the jump through memory the last word inside and
the first outside; and the stop byte in the last byte of memory. -/
theorem witness_IdiomsHaveTheirEffects :
    (st 256 0xFC [0x10, 0x12, 0x34, 0x00]).codeAtIp (idiomJump 0x1234) ∧
    (st 256 0xFD [0x11, 0x02, 0x00]).codeAtIp (idiomJumpRegister .r1) ∧
    ((st 256 0xFC [0x13, 0x00, 0xFE, 0x00]).codeAtIp (idiomJumpMemory 0x00FE) ∧
      (0x00FE : Word).toNat + 2 ≤ (st 256 0xFC [0x13, 0x00, 0xFE, 0x00]).size) ∧
    ((st 256 0xFC [0x13, 0x00, 0xFF, 0x00]).codeAtIp (idiomJumpMemory 0x00FF) ∧
      (st 256 0xFC [0x13, 0x00, 0xFF, 0x00]).size < (0x00FF : Word).toNat + 2) ∧
    (st 256 0xFD [0x11, 0x00, 0x09]).codeAtIp (idiomNextAddress .r8) ∧
    (st 256 0xFD [0x11, 0x02, 0x02]).codeAtIp idiomNop ∧
    (st 256 0xFF [0x00]).ip.toNat + 1 ≤ (st 256 0xFF [0x00]).size ∧
    ((st 256 0xFF [0x00]).byteAt (st 256 0xFF [0x00]).ip).toNat < 0x10 := by
  unfold State.codeAtIp
  decide

theorem witness_FaultChangesOnlyIp : ∃ f, step (st 256 0 [0x00]) = .fault f := fault_of (by decide)

/-- The three kinds of access that fault: a fetch, a load, a store. -/
theorem witness_BoundsFaultNamesItsAccess :
    (∃ a w k t, step (st 256 0xFF [0x10]) = .fault (.boundsViolation a w k t)) ∧
    (∃ a w k t, step (st 256 0 [0x13, 0x00, 0xFF, 0x02]) = .fault (.boundsViolation a w k t)) ∧
    ∃ a w k t, step (st 256 0 [0x12, 0x02, 0x00, 0xFF]) = .fault (.boundsViolation a w k t) :=
  ⟨bounds_of (by decide), bounds_of (by decide), bounds_of (by decide)⟩

/-- A step completes on each of the six opcodes. -/
theorem complete_each :
    ((∃ t, step (st 256 0 [0x10, 0, 1, 2]) = .next t) ∧ (st 256 0 [0x10, 0, 1, 2]).byteAt 0 = 0x10) ∧
    ((∃ t, step (st 256 0 [0x11, 2, 3]) = .next t) ∧ (st 256 0 [0x11, 2, 3]).byteAt 0 = 0x11) ∧
    ((∃ t, step (st 256 0 [0x12, 2, 0, 0xFE]) = .next t) ∧ (st 256 0 [0x12, 2, 0, 0xFE]).byteAt 0 = 0x12) ∧
    ((∃ t, step (st 256 0 [0x13, 0, 0xFE, 2]) = .next t) ∧ (st 256 0 [0x13, 0, 0xFE, 2]).byteAt 0 = 0x13) ∧
    ((∃ t, step (st 256 0 [0x14, 2, 3]) = .next t) ∧ (st 256 0 [0x14, 2, 3]).byteAt 0 = 0x14) ∧
    (∃ t, step (st 256 0 [0x15, 0, 1, 0, 0]) = .next t) ∧ (st 256 0 [0x15, 0, 1, 0, 0]).byteAt 0 = 0x15 :=
  ⟨⟨next_of (by decide), by decide⟩, ⟨next_of (by decide), by decide⟩, ⟨next_of (by decide), by decide⟩,
    ⟨next_of (by decide), by decide⟩, ⟨next_of (by decide), by decide⟩, next_of (by decide), by decide⟩

/-- The premises of `StepWritesOnlyWhatItsRowSays`: a step completes on each opcode, the state's `ip` is 0, and
an opcode other than the store's stands for its last clause. -/
theorem witness_StepWritesOnlyWhatItsRowSays :
    (∃ t, step (st 256 0 [0x12, 2, 0, 0xFE]) = .next t) ∧ (st 256 0 [0x12, 2, 0, 0xFE]).ip = 0 ∧
      (st 256 0 [0x11, 2, 3]).byteAt 0 ≠ 0x12 :=
  ⟨complete_each.2.2.1.1, by decide, by decide⟩

/-- Both branches of each row of `EveryWriteOfIp` that has two: into `ip` and not, taken and not. -/
theorem witness_EveryWriteOfIp :
    (∃ t, step (st 256 0x13 [0x10, 0x00, 0x20, 0x00]) = .next t) ∧
    (∃ t, step (st 256 0 [0x10, 0x00, 0x80, 0x0A]) = .next t) ∧
    (∃ t, step (st 256 0x20 [0x11, 0x00, 0x00]) = .next t) ∧
    (∃ t, step (st 256 0 [0x11, 0x02, 0x00] 0 0x0040) = .next t) ∧
    (∃ t, step (stWith (st 256 0 [0x13, 0x00, 0x40, 0x00]) 0x40 [0x00, 0x80]) = .next t) ∧
    (∃ t, step (st 256 0x10 [0x15, 0x00, 0x01, 0x00, 0x15]) = .next t) ∧
    ∃ t, step (st 256 0 [0x15, 0xFF, 0xFF, 0x00, 0x40] 0xFFFF) = .next t :=
  ⟨next_of (by decide), next_of (by decide), next_of (by decide), next_of (by decide), next_of (by decide),
    next_of (by decide), next_of (by decide)⟩

/-- The first target outside memory. -/
theorem witness_TargetOutsideMemoryFaultsAtTheNextStep :
    (0x0001 : Word) ≠ (st 256 0 []).reg .acc ∧ (st 256 0 []).size ≤ (0x0100 : Word).toNat := by decide

theorem witness_StepsOutsideMemoryRepeatTheFault : (st 256 0x100 []).size ≤ (st 256 0x100 []).ip.toNat := by decide

/-- An invalid opcode in the last byte but one, so that the next byte is the last inside memory. -/
theorem witness_StepAfterInvalidOpcodeReadsTheNextByte :
    (∃ op t, step (st 256 0xFE [0x00]) = .fault (.unknownInstruction op t)) ∧
      ((st 256 0xFE [0x00]).ip + 1).toNat + 1 ≤ (st 256 0xFE [0x00]).size :=
  ⟨unknown_of (by decide), by decide⟩

theorem witness_StoreIsSeenByTheNextFetch :
    (∃ t, step (st 256 0 [0x12, 2, 0, 0xFE]) = .next t) ∧
      (st 256 0 [0x12, 2, 0, 0xFE]).byteAt (st 256 0 [0x12, 2, 0, 0xFE]).ip = 0x12 ∧
      (st 256 0 [0x12, 2, 0, 0xFE]).wordAt ((st 256 0 [0x12, 2, 0, 0xFE]).ip + 2) = 0x00FE ∧
      ((st 256 0 [0x12, 2, 0, 0xFE]).atIp ((st 256 0 [0x12, 2, 0, 0xFE]).ip + 4)).reg
        (regOf ((st 256 0 [0x12, 2, 0, 0xFE]).byteAt ((st 256 0 [0x12, 2, 0, 0xFE]).ip + 1))) = 0x0000 :=
  ⟨next_of (by decide), by decide⟩

/-- A state with the invariant whose step stores, and one whose step faults. -/
theorem witness_StepKeepsTheInvariant :
    ((st 256 0 [0x12, 0x02, 0x00, 0x81] 0 0xCAFE).inv ∧
      ∃ t, step (st 256 0 [0x12, 0x02, 0x00, 0x81] 0 0xCAFE) = .next t) ∧
    (st 256 0 [0x12, 0x02, 0x00, 0xFF] 0 0xCAFE).inv ∧
      ∃ f, step (st 256 0 [0x12, 0x02, 0x00, 0xFF] 0 0xCAFE) = .fault f :=
  ⟨⟨by decide, next_of (by decide)⟩, by decide, fault_of (by decide)⟩

theorem witness_HostRequestsKeepTheInvariant : (st 256 0 [0x12, 0x02, 0x00, 0x81]).inv := by decide

/-- The same contents as different data: one list of cells names a byte that reads as an unlisted one. -/
theorem witness_StepDependsOnContentsAlone :
    let s : State := ⟨Regs.zero, ⟨sized 4, [(0, 0x14), (1, 0x00)]⟩⟩
    let t : State := ⟨Regs.zero, ⟨sized 4, [(0, 0x14)]⟩⟩
    s ≠ t ∧ s.sameContents t :=
  ⟨by decide, by decide, by decide, by decide⟩

theorem witness_TransactionsFollowTheRow :
    (∃ t, step (st 256 0 [0x13, 0, 0xFE, 2]) = .next t) ∧ (st 256 0 [0x13, 0, 0xFE, 2]).ip = 0 ∧
      (st 256 0 [0x13, 0, 0xFE, 2]).byteAt 0 = 0x13 :=
  ⟨complete_each.2.2.2.1.1, by decide, by decide⟩

/-- T5: the fourth transaction of a store that leaves memory. -/
theorem witness_FirstFailedTransactionEndsTheStep :
    stepAccesses (st 256 0 [0x12, 0x02, 0x00, 0xFF] 0 0xCAFE) =
      [⟨.read, 0x0000, .w8, some 0x12⟩, ⟨.read, 0x0001, .w8, some 0x02⟩, ⟨.read, 0x0002, .w16, some 0x00FF⟩] ++
        [⟨.write, 0x00FF, .w16, none⟩] ∧
    (⟨.write, 0x00FF, .w16, none⟩ : Access).done = false := by decide

theorem witness_TransactionsAccountForMemory :
    ∃ t, step (st 256 0 [0x12, 0x02, 0x00, 0x81] 0 0xCAFE) = .next t := next_of (by decide)

/-- A name outside the table: the exact comparison refuses upper case. Serves the three statements about the
register port. -/
theorem witness_names_outside_the_table :
    "IP" ∉ ["ip", "acc", "r1", "r2", "r3", "r4", "r5", "r6", "r7", "r8"] ∧
    "r9" ∉ ["ip", "acc", "r1", "r2", "r3", "r4", "r5", "r6", "r7", "r8"] := by decide

/-- Sizes at both ends of the range and just outside, and a byte of an image. -/
theorem witness_ConstructionKeepsTheImage :
    (1 ≤ 1 ∧ 1 ≤ 65536 ∧ (0 : Nat) < 1 ∧ ([0x10] : List Byte)[0]? = some 0x10) ∧
    (1 ≤ 65536 ∧ 65536 ≤ 65536) ∧ ((0 : Nat) = 0 ∨ 65536 < 0) ∧ ((65537 : Nat) = 0 ∨ 65536 < 65537) := by decide

/-- The smallest memory, all zero, at reset. -/
theorem witness_UnloadedMemoryDoesNotRun :
    (∀ n, (State.construct (Memory.blank (sized 1))).reg n = 0x0000) ∧
      ∀ a, a < (State.construct (Memory.blank (sized 1))).size →
        (State.construct (Memory.blank (sized 1))).mem.byte a = 0x00 :=
  ⟨fun n => Regs.get_zero n, fun _ _ => rfl⟩

theorem witness_BootFetchesAtTheEntry : 255 < (Memory.blank (sized 256)).size.val := by decide

/-- The last access inside and the first outside, for each width. -/
theorem witness_HostMemoryAccessIsSeen :
    (0x00FF : Word).toNat + 1 ≤ (st 256 0 []).size ∧ (0x00FE : Word).toNat + 2 ≤ (st 256 0 []).size ∧
    (st 256 0 []).size < (0x0100 : Word).toNat + Width.w8.bytes ∧
    (st 256 0 []).size < (0x00FF : Word).toNat + Width.w16.bytes := by decide

/-- The longest instruction, placed at the last address with room for it. -/
theorem witness_PlacedTableWordRuns :
    (40 : Nat) ≤ 40 ∧ (st 256 0xFB []).ip.toNat + 5 ≤ (st 256 0xFB []).size ∧
      decodeTableWord 40 0x15FFFF0040 = some (.jmpNotEql 0xFFFF 0x0040) := by decide

end Sys2Proof.Tests
end

section
/-! SUPPORT. The obligations about the state (`10_state.md`), with the lemmas they rest on: the canonical form
of memory read as a set of bytes, the top of the address space, and what a step writes and what it leaves. -/

namespace Sys2Proof

/-! ### Byte order by bits (`00_scope.md` R6) -/

theorem hiByte_eq_bits15to8 (w : Word) : hiByte w = Machine.bits15to8 w := by
  apply BitVec.eq_of_toNat_eq
  have := w.isLt
  simp only [toNat_hiByte, Machine.bits15to8, BitVec.extractLsb'_toNat, Nat.shiftRight_eq_div_pow]
  omega

theorem loByte_eq_bits7to0 (w : Word) : loByte w = Machine.bits7to0 w := by
  apply BitVec.eq_of_toNat_eq
  simp [toNat_loByte, Machine.bits7to0]

/-! ### The lengths and the destinations of the rows (`30_encoding.md` R51, `10_state.md` R18) -/

@[simp] theorem Opcode.length_movLitReg : Opcode.length .movLitReg = 4 := rfl

@[simp] theorem Opcode.length_movRegReg : Opcode.length .movRegReg = 3 := rfl

@[simp] theorem Opcode.length_movRegMem : Opcode.length .movRegMem = 4 := rfl

@[simp] theorem Opcode.length_movMemReg : Opcode.length .movMemReg = 4 := rfl

@[simp] theorem Opcode.length_addRegReg : Opcode.length .addRegReg = 3 := rfl

@[simp] theorem Opcode.length_jmpNotEql : Opcode.length .jmpNotEql = 5 := rfl

/-- The register besides `ip` that the row of an instruction writes, where there is one (R18). -/
def Instr.destRegs : Instr → List Machine.RegName
  | .movLitReg _ rb => [Machine.regOf rb]
  | .movRegReg _ tb => [Machine.regOf tb]
  | .movRegMem _ _ => []
  | .movMemReg _ tb => [Machine.regOf tb]
  | .addRegReg _ _ => [.acc]
  | .jmpNotEql _ _ => []

end Sys2Proof

namespace Sys2Proof.Machine

/-! ### The canonical form determines the data (`10_state.md` R20, log entry 2) -/

/-- In rising cells a listed byte is the one read at its address. -/
theorem mem_iff_cellAt_eq {cells : List Host.Cell} (hp : cells.Pairwise (fun c d => c.1 < d.1)) {a : Nat}
    {v : Byte} (hv : v ≠ Config.unlistedByte) : (a, v) ∈ cells ↔ cellAt cells a = v := by
  induction cells with
  | nil => simp [cellAt, Ne.symm hv]
  | cons d rest ih =>
    obtain ⟨k, w⟩ := d
    obtain ⟨hk, hrest⟩ := List.pairwise_cons.mp hp
    by_cases hka : k = a
    · subst hka
      have hout : (k, v) ∉ rest := fun hc => Nat.lt_irrefl k (hk (k, v) hc)
      simp [cellAt, hout, eq_comm]
    · simp [cellAt, hka, Ne.symm hka, ih hrest]

/-- The cells of a memory in canonical form are its bytes inside memory other than the unlisted one. -/
theorem Memory.mem_cells_iff {m : Memory} (h : m.wf) (c : Host.Cell) :
    c ∈ m.cells ↔ c.1 < m.size.val ∧ m.byte c.1 = c.2 ∧ c.2 ≠ Config.unlistedByte := by
  obtain ⟨hp, hin⟩ := h
  constructor
  · intro hc
    obtain ⟨hlt, hv⟩ := hin c hc
    exact ⟨hlt, (mem_iff_cellAt_eq hp hv).mp hc, hv⟩
  · rintro ⟨-, hb, hv⟩
    exact (mem_iff_cellAt_eq hp hv).mpr hb

/-- Rising lists of cells with the same members are the same list. -/
theorem cells_eq_of_mem_iff {cells cells' : List Host.Cell} (hp : cells.Pairwise (fun c d => c.1 < d.1))
    (hp' : cells'.Pairwise (fun c d => c.1 < d.1)) (h : ∀ c, c ∈ cells ↔ c ∈ cells') : cells = cells' := by
  have : Std.Irrefl (fun c d : Host.Cell => c.1 < d.1) := ⟨fun c => Nat.lt_irrefl c.1⟩
  have : Std.Antisymm (fun c d : Host.Cell => c.1 < d.1) := ⟨fun _ _ h h' => absurd h' (Nat.lt_asymm h)⟩
  exact hp.eq_of_mem_iff hp' h

/-- Settles O11: in canonical form the cells are determined by the size and the bytes inside memory. -/
theorem canonicalMemoriesAreEqualData : Obligations.CanonicalMemoriesAreEqualData := by
  unfold Obligations.CanonicalMemoriesAreEqualData
  intro m m' h h' hsize hbyte
  have hmem : ∀ c, c ∈ m.cells ↔ c ∈ m'.cells := by
    intro c
    rw [Memory.mem_cells_iff h, Memory.mem_cells_iff h', ← hsize]
    exact and_congr_right fun hlt => by rw [hbyte c.1 hlt]
  obtain ⟨hp, -⟩ := h
  obtain ⟨hp', -⟩ := h'
  calc m = ⟨m.size, m.cells⟩ := rfl
    _ = ⟨m'.size, m'.cells⟩ := by rw [hsize, cells_eq_of_mem_iff hp hp' hmem]

/-! ### The top of the address space (`10_state.md` R16, `20_memory.md` R35) -/

/-- No memory holds the second byte of a word at `0xFFFF` (decision D2). -/
theorem State.size_lt_word_at_top (s : State) : s.size < (0xFFFF : Word).toNat + 2 :=
  Nat.lt_succ_of_le s.size_le

/-- Settles O10: 16-bit accesses at `0xFFFF` are outside every memory; an 8-bit fetch is inside a full one. -/
theorem topOfAddressSpace : Obligations.TopOfAddressSpace := by
  unfold Obligations.TopOfAddressSpace
  refine ⟨fun s v => ⟨memRead16_outside s.size_lt_word_at_top, memWrite16_outside v s.size_lt_word_at_top⟩,
    fun s hip => ?_⟩
  rw [← hip]
  refine ⟨fetch16_outside (hip ▸ s.size_lt_word_at_top), fun hsize => ?_, fun hsize => ?_⟩
  · exact ⟨_, fetch8_inside (by rw [hip]; exact hsize.ge), by rw [State.ip_atIp, hip]; rfl⟩
  · exact fetch8_outside (by rw [hip]; exact hsize)

/-! ### The register bank as bytes and at construction (`10_state.md` R14, R25) -/

theorem Regs.length_bankBytes (r : Regs) : r.bankBytes.length = 20 := rfl

theorem Regs.bankBytes_hi (r : Regs) (n : RegName) :
    r.bankBytes[2 * n.number]? = some (hiByte (r.get n)) := by
  cases n <;> rfl

theorem Regs.bankBytes_lo (r : Regs) (n : RegName) :
    r.bankBytes[2 * n.number + 1]? = some (loByte (r.get n)) := by
  cases n <;> rfl

/-- Settles O56: each register's two bytes stand at twice its number, the high one first. -/
theorem registerBankLayout : Obligations.RegisterBankLayout := by
  unfold Obligations.RegisterBankLayout
  intro r n
  rw [← hiByte_eq_bits15to8, ← loByte_eq_bits7to0]
  exact ⟨r.length_bankBytes, r.bankBytes_hi n, r.bankBytes_lo n⟩

@[simp] theorem State.reg_construct (m : Memory) (n : RegName) : (State.construct m).reg n = 0 :=
  Regs.get_zero n

@[simp] theorem State.ip_construct (m : Memory) : (State.construct m).ip = 0 := rfl

/-- Settles O50: the bank is zero, and every memory holds the byte at address 0. -/
theorem constructionZeroesEveryRegister : Obligations.ConstructionZeroesEveryRegister := by
  unfold Obligations.ConstructionZeroesEveryRegister
  refine ⟨State.reg_construct, State.reg_construct _, fun m => ?_⟩
  have hin : (State.construct m).ip.toNat + 1 ≤ (State.construct m).size := m.size.pos
  exact ⟨_, fetch8_inside hin⟩

/-! ### What a step does to memory (`20_memory.md` R34, `60_exceptions.md` R126) -/

/-- A step that completes leaves memory as it was, or stores one word inside it. -/
theorem step_next_mem {s t : State} (h : step s = .next t) :
    t.mem = s.mem ∨ ∃ (a v : Word), a.toNat + 2 ≤ s.size ∧ t.mem = s.mem.setWord a.toNat v := by
  obtain ⟨i, -, -, -, hex⟩ := step_next h
  rcases exec_next hex with ⟨fb, addr, -, hb, rfl⟩ | ⟨-, n, v, rfl⟩
  · exact .inr ⟨addr, _, hb, rfl⟩
  · exact .inl rfl

/-- A step that faults leaves the state at its start with `ip` moved. -/
theorem step_fault_left {s : State} {f : Fault} (h : step s = .fault f) : ∃ a, f.left = s.atIp a := by
  rcases step_cases s with ⟨-, hs⟩ | ⟨-, -, hs⟩ | ⟨o, a, w, -, -, -, -, hs⟩ | ⟨i, -, -, -, hs⟩
  · cases hs.symm.trans h
    exact ⟨s.ip, s.atIp_self.symm⟩
  · cases hs.symm.trans h
    exact ⟨s.ip + 1, rfl⟩
  · cases hs.symm.trans h
    exact ⟨a, rfl⟩
  · rcases exec_fault (hs.symm.trans h) with ⟨fb, addr, -, -, rfl⟩ | ⟨addr, tb, -, -, rfl⟩
    · exact ⟨_, rfl⟩
    · exact ⟨_, rfl⟩

/-- A step that faults changes no memory. -/
theorem step_fault_left_mem {s : State} {f : Fault} (h : step s = .fault f) : f.left.mem = s.mem := by
  obtain ⟨a, ha⟩ := step_fault_left h
  rw [ha, State.atIp_mem]

/-- Settles O39: a step changes memory by one word stored inside it or not at all. -/
theorem stepKeepsTheInvariant : Obligations.StepKeepsTheInvariant := by
  unfold Obligations.StepKeepsTheInvariant
  intro s hinv
  refine ⟨fun t ht => ?_, fun f hf => ?_⟩
  · rcases step_next_mem ht with hm | ⟨a, v, hb, hm⟩
    · rwa [State.inv, hm]
    · rw [State.inv, hm]
      exact Memory.wf_setWord _ _ hinv hb
  · rwa [State.inv, step_fault_left_mem hf]

theorem size_stateAfterStep (s : State) : (stateAfterStep s).size = s.size := by
  unfold stateAfterStep State.size
  cases hs : step s with
  | next t =>
    rcases step_next_mem hs with hm | ⟨a, v, -, hm⟩
    · simp only [hm]
    · simp only [hm, Memory.size_setWord]
  | fault f => simp only [step_fault_left_mem hs]
  | refused r => rfl

/-- Settles O37, by induction on the number of steps. -/
theorem stepsKeepTheMemorySize : Obligations.StepsKeepTheMemorySize := by
  unfold Obligations.StepsKeepTheMemorySize
  intro k
  induction k with
  | zero => exact fun s => rfl
  | succ k ih => exact fun s => (ih (stateAfterStep s)).trans (size_stateAfterStep s)

/-! ### The instruction a step runs, from the bytes at `ip` (`30_encoding.md` R52, R53) -/

theorem State.wordAt_eq_beWord (s : State) (a : Word) :
    s.wordAt a = beWord (s.byteAt a) (s.byteAt (a + 1)) := (beWord_eq_append _ _).symm

/-- The instruction of an opcode whose operand bytes follow the byte at `ip` (R53); `step_of_fetchable` ties
it to the step. -/
def State.instrAtIp (s : State) : Opcode → Instr
  | .movLitReg => .movLitReg (s.wordAt (s.ip + 1)) (s.byteAt (s.ip + 3))
  | .movRegReg => .movRegReg (s.byteAt (s.ip + 1)) (s.byteAt (s.ip + 2))
  | .movRegMem => .movRegMem (s.byteAt (s.ip + 1)) (s.wordAt (s.ip + 2))
  | .movMemReg => .movMemReg (s.wordAt (s.ip + 1)) (s.byteAt (s.ip + 3))
  | .addRegReg => .addRegReg (s.byteAt (s.ip + 1)) (s.byteAt (s.ip + 2))
  | .jmpNotEql => .jmpNotEql (s.wordAt (s.ip + 1)) (s.wordAt (s.ip + 3))

/-- The operand fetches after the opcode byte read the instruction at `ip` and move `ip` past it. -/
theorem fetchOperands_instrAtIp {s : State} {o : Opcode} (h : s.fetchable o = true) :
    fetchOperands o (s.atIp (s.ip + 1)) = .ok (s.instrAtIp o, s.atIp (s.ip + BitVec.ofNat 16 o.length)) := by
  have hin : (s.atIp (s.ip + 1)).operandsInBounds (s.atIp (s.ip + 1)).ip o.format.widths = true := by
    rw [State.operandsInBounds_atIp, State.ip_atIp]
    exact (Bool.and_eq_true_iff.mp h).2
  cases o with
  | movLitReg =>
    rw [fetchOperands_movLitReg hin]
    simp [State.instrAtIp, State.wordAt_eq_beWord, BitVec.add_assoc]
  | movRegReg =>
    rw [fetchOperands_movRegReg hin]
    simp [State.instrAtIp, BitVec.add_assoc]
  | movRegMem =>
    rw [fetchOperands_movRegMem hin]
    simp [State.instrAtIp, State.wordAt_eq_beWord, BitVec.add_assoc]
  | movMemReg =>
    rw [fetchOperands_movMemReg hin]
    simp [State.instrAtIp, State.wordAt_eq_beWord, BitVec.add_assoc]
  | addRegReg =>
    rw [fetchOperands_addRegReg hin]
    simp [State.instrAtIp, BitVec.add_assoc]
  | jmpNotEql =>
    rw [fetchOperands_jmpNotEql hin]
    simp [State.instrAtIp, State.wordAt_eq_beWord, BitVec.add_assoc]

/-- Where no fetch leaves memory, a step runs the effect of the instruction at `ip`, with `ip` past it. -/
theorem step_of_fetchable {s : State} {o : Opcode} (h : s.fetchable o = true) (hb : s.byteAt s.ip = o.byte) :
    step s = exec (s.instrAtIp o) (s.atIp (s.ip + BitVec.ofNat 16 o.length)) := by
  have hin : s.ip.toNat + 1 ≤ s.size := of_decide_eq_true (Bool.and_eq_true_iff.mp h).1
  exact step_operands_ok hin (by rw [hb, Opcode.ofByte_byte]) (fetchOperands_instrAtIp h)

/-- A step that completes on an opcode's byte has run the effect of the instruction at `ip`. -/
theorem exec_instrAtIp_of_step {s t : State} {o : Opcode} (h : step s = .next t) (hb : s.byteAt s.ip = o.byte) :
    exec (s.instrAtIp o) (s.atIp (s.ip + BitVec.ofNat 16 o.length)) = .next t := by
  obtain ⟨i, hf, ho, -, -⟩ := step_next h
  rw [hb, Opcode.ofByte_byte, Option.some.injEq] at ho
  rw [← step_of_fetchable (ho ▸ hf) hb, h]

/-! ### What the row of an instruction writes (`10_state.md` R18) -/

theorem State.regsKeptBut.mono {s t : State} {l l' : List RegName} (h : s.regsKeptBut t l) (hl : l ⊆ l') :
    s.regsKeptBut t l' := fun n hn => h n fun hmem => hn (hl hmem)

/-- A frame that leaves out `ip` does not see where `ip` started. -/
theorem State.regsKeptBut_of_atIp {s t : State} {a : Word} {l : List RegName}
    (h : (s.atIp a).regsKeptBut t (.ip :: l)) : s.regsKeptBut t (.ip :: l) := by
  intro n hn
  rw [h n hn, s.reg_atIp_other a (List.ne_of_not_mem_cons hn)]

/-- An effect that completes changes no register but `ip` and the destination of its row. -/
theorem exec_next_regsKept {i : Instr} {s t : State} (h : exec i s = .next t) :
    s.regsKeptBut t (.ip :: i.destRegs) := by
  have dest : ∀ (n : RegName) (v : Nat), s.regsKeptBut (s.setReg n v) [.ip, n] := fun n v =>
    (s.regsKeptBut_setReg n v).mono (by simp)
  cases i with
  | movLitReg lit rb => cases h; exact dest _ _
  | movRegReg fb tb => cases h; exact dest _ _
  | movRegMem fb addr =>
    rcases exec_next h with ⟨_, _, _, _, rfl⟩ | ⟨hne, _⟩
    · exact fun _ _ => rfl
    · exact absurd rfl (hne fb addr)
  | movMemReg addr tb =>
    rcases Nat.lt_or_ge s.size (addr.toNat + 2) with hb | hb
    · rw [exec_movMemReg_outside _ hb] at h; cases h
    · rw [exec_movMemReg_inside _ hb] at h; cases h; exact dest _ _
  | addRegReg b1 b2 => cases h; exact dest _ _
  | jmpNotEql val tgt =>
    simp only [exec, execJmpNotEql, Host.Outcome.next.injEq] at h
    split at h
    · exact h ▸ s.regsKeptBut_setReg .ip _
    · exact h ▸ fun _ _ => rfl

/-- A step that completes changes no register but `ip` and the destination of the row at `ip`. -/
theorem step_next_regsKept {s t : State} {o : Opcode} (h : step s = .next t) (hb : s.byteAt s.ip = o.byte) :
    s.regsKeptBut t (.ip :: (s.instrAtIp o).destRegs) :=
  State.regsKeptBut_of_atIp (exec_next_regsKept (exec_instrAtIp_of_step h hb))

/-- A step that completes on any opcode but the store's changes no memory. -/
theorem step_next_mem_of_not_store {s t : State} (h : step s = .next t)
    (hb : s.byteAt s.ip ≠ Opcode.movRegMem.byte) : t.mem = s.mem := by
  obtain ⟨i, -, ho, -, hex⟩ := step_next h
  rcases exec_next hex with ⟨fb, addr, rfl, -, -⟩ | ⟨-, n, v, rfl⟩
  · exact absurd (Opcode.ofByte_eq_some ho) hb
  · rfl

/-- A step that completes on the store's opcode stores one word, at the address of its row. -/
theorem step_next_mem_of_store {s t : State} (h : step s = .next t)
    (hb : s.byteAt s.ip = Opcode.movRegMem.byte) :
    ∃ v, t.mem = s.mem.setWord (s.wordAt (s.ip + 2)).toNat v := by
  rcases exec_next (exec_instrAtIp_of_step h hb) with ⟨fb, addr, hi, -, rfl⟩ | ⟨hne, -⟩
  · cases hi
    exact ⟨_, rfl⟩
  · exact absurd rfl (hne _ _)

theorem State.memoryKeptBut16_of_setWord {s t : State} {addr v : Word}
    (h : t.mem = s.mem.setWord addr.toNat v) : s.memoryKeptBut16 t addr := by
  rw [State.memoryKeptBut16, h]
  exact ⟨rfl, fun _ ha ha' => Memory.byte_setWord_other _ _ ha ha'⟩

/-- Settles O32: the frame of the row at `ip`, read off for each opcode byte. -/
theorem stepWritesOnlyWhatItsRowSays : Obligations.StepWritesOnlyWhatItsRowSays := by
  unfold Obligations.StepWritesOnlyWhatItsRowSays
  intro s t h
  refine ⟨step_next_regsKept (o := .movLitReg) h, step_next_regsKept (o := .movRegReg) h, fun hb => ?_,
    step_next_regsKept (o := .movMemReg) h, step_next_regsKept (o := .addRegReg) h,
    step_next_regsKept (o := .jmpNotEql) h,
    fun hb => State.memoryKept_of_mem_eq (step_next_mem_of_not_store h hb)⟩
  obtain ⟨v, hm⟩ := step_next_mem_of_store h hb
  exact ⟨step_next_regsKept (o := .movRegMem) h hb, State.memoryKeptBut16_of_setWord hm⟩

end Sys2Proof.Machine
end

section
/-! SUPPORT. The obligations about memory (`20_memory.md`), with the lemmas they rest on: the bytes after a
store, and the transactions of a step, tied to the fetches and to the effect of the instruction at `ip`. -/

namespace Sys2Proof

/-- The bytes that are opcodes, as a range (`30_encoding.md` R53). -/
theorem Opcode.exists_byte_eq_iff (op : Byte) :
    (∃ o : Opcode, op = o.byte) ↔ 0x10 ≤ op.toNat ∧ op.toNat ≤ 0x15 := by
  constructor
  · rintro ⟨o, rfl⟩
    cases o <;> decide
  · rintro ⟨hlo, hhi⟩
    cases ho : Opcode.ofByte op with
    | none => have := (Opcode.ofByte_eq_none_iff op).mp ho; omega
    | some o => exact ⟨o, Opcode.ofByte_eq_some ho⟩

end Sys2Proof

namespace Sys2Proof.Machine

/-! ### The bytes after a store (`20_memory.md` R31, R34) -/

/-- A 16-bit store that completes was inside memory, and changes memory by its word alone. -/
theorem memWrite16_ok {s t : State} {a v : Word} (h : memWrite16 a v s = .ok t) :
    a.toNat + 2 ≤ s.size ∧ t.mem = s.mem.setWord a.toNat v := by
  rcases Nat.lt_or_ge s.size (a.toNat + 2) with hb | hb
  · rw [memWrite16_outside v hb] at h; cases h
  · rw [memWrite16_inside v hb] at h; cases h; exact ⟨hb, rfl⟩

theorem State.size_of_setWord {s t : State} {a v : Word} (h : t.mem = s.mem.setWord a.toNat v) :
    t.size = s.size := by
  rw [State.size, h, Memory.size_setWord, State.size]

theorem State.byteAt_hi_of_setWord {s t : State} {a v : Word} (h : t.mem = s.mem.setWord a.toNat v) :
    t.byteAt a = bits15to8 v := by
  rw [State.byteAt, h, Memory.byte_setWord_hi, hiByte_eq_bits15to8]

theorem State.byteAt_lo_of_setWord {s t : State} {a v : Word} (hin : a.toNat + 2 ≤ s.size)
    (h : t.mem = s.mem.setWord a.toNat v) : t.byteAt (a + 1) = bits7to0 v := by
  rw [State.byteAt, h, toNat_succ_of_inside hin, Memory.byte_setWord_lo, loByte_eq_bits7to0]

theorem State.byteAt_other_of_setWord {s t : State} {a v b : Word} (hin : a.toNat + 2 ≤ s.size)
    (h : t.mem = s.mem.setWord a.toNat v) (hb : b ≠ a) (hb' : b ≠ a + 1) : t.byteAt b = s.byteAt b := by
  have hlo : b.toNat ≠ a.toNat + 1 := by
    rw [← toNat_succ_of_inside hin]
    exact BitVec.toNat_ne.mp hb'
  rw [State.byteAt, h, Memory.byte_setWord_other _ _ (BitVec.toNat_ne.mp hb) hlo, State.byteAt]

theorem State.wordAt_of_setWord {s t : State} {a v : Word} (hin : a.toNat + 2 ≤ s.size)
    (h : t.mem = s.mem.setWord a.toNat v) : t.wordAt a = v := by
  rw [State.wordAt_eq_beWord, State.byteAt_hi_of_setWord h, State.byteAt_lo_of_setWord hin h,
    ← hiByte_eq_bits15to8, ← loByte_eq_bits7to0, beWord_hiByte_loByte]

@[simp] theorem State.wordAt_atIp (s : State) (a b : Word) : (s.atIp a).wordAt b = s.wordAt b := rfl

theorem memRead16_inside_wordAt {s : State} {a : Word} (h : a.toNat + 2 ≤ s.size) :
    memRead16 a s = .ok (s.wordAt a) := by
  rw [memRead16_inside h, State.word_eq h, State.wordAt_eq_beWord]

theorem fetch16_inside_wordAt {s : State} (h : s.ip.toNat + 2 ≤ s.size) :
    fetch16 s = .ok (s.wordAt s.ip, s.atIp (s.ip + 2)) := by
  rw [fetch16_inside h, State.wordAt_eq_beWord]

/-- Settles O7: a word inside memory reads and writes as its two bytes, the high one first. -/
theorem sixteenBitAccessIsBigEndian : Obligations.SixteenBitAccessIsBigEndian := by
  unfold Obligations.SixteenBitAccessIsBigEndian
  refine ⟨fun s a h => memRead16_inside_wordAt h, fun s a v h => ?_, fun s h => ⟨_, fetch16_inside_wordAt h⟩⟩
  exact ⟨_, memWrite16_inside v h, State.byteAt_hi_of_setWord rfl, State.byteAt_lo_of_setWord h rfl⟩

/-- Settles O8: each byte is that of the last of the two stores that covers it. -/
theorem overlappingStoresShareOneByte : Obligations.OverlappingStoresShareOneByte := by
  unfold Obligations.OverlappingStoresShareOneByte
  intro s t u a v w hv hw
  obtain ⟨hin, ht⟩ := memWrite16_ok hv
  obtain ⟨hin', hu⟩ := memWrite16_ok hw
  have htsize : t.size = s.size := State.size_of_setWord ht
  have husize : u.size = t.size := State.size_of_setWord hu
  have h1 : (a + 1).toNat = a.toNat + 1 := toNat_succ_of_inside hin
  have hlast : a + 1 + 1 = a + 2 := BitVec.add_assoc a 1 1
  have h2 : (a + 2).toNat = a.toNat + 2 := by rw [← hlast, toNat_succ_of_inside hin', h1]
  refine ⟨?_, ?_, ?_, ?_, ?_, fun b hb hb1 hb2 => ?_⟩
  · rw [memRead8_inside (by omega), State.byteAt_hi_of_setWord ht]
  · rw [memRead8_inside (by omega), State.byteAt_lo_of_setWord hin ht]
  · rw [memRead8_inside (by omega), State.byteAt_other_of_setWord hin' hu (by simp) (by rw [hlast]; simp),
      State.byteAt_hi_of_setWord ht]
  · rw [memRead8_inside (by omega), State.byteAt_hi_of_setWord hu]
  · rw [memRead8_inside (by omega), ← hlast, State.byteAt_lo_of_setWord hin' hu]
  · rw [State.byteAt_other_of_setWord hin' hu hb1 (hlast ▸ hb2), State.byteAt_other_of_setWord hin ht hb hb1]

/-- Settles O9: the primitives on either side of the bound, with the frame of each store. -/
theorem accessOutsideMemoryMovesNothing : Obligations.AccessOutsideMemoryMovesNothing := by
  unfold Obligations.AccessOutsideMemoryMovesNothing
  intro s a v b
  refine ⟨fun h => ⟨memRead8_inside h, ?_⟩, fun h => ⟨memRead8_outside h, memWrite8_outside b h⟩,
    fun h => ⟨⟨_, memRead16_inside h⟩, ?_⟩, fun h => ⟨memRead16_outside h, memWrite16_outside v h⟩⟩
  · exact ⟨_, memWrite8_inside b h, Memory.byte_setByte_same _ _ _, rfl,
      fun c hc => Memory.byte_setByte_other _ _ (BitVec.toNat_ne.mp hc)⟩
  · exact ⟨_, memWrite16_inside v h, rfl, fun c hc hc' => State.byteAt_other_of_setWord h rfl hc hc'⟩

/-! ### A store seen by the next fetch (`20_memory.md` R46) -/

/-- A step that completes on the store's opcode stored the source register's word, read with `ip` past the
instruction, inside memory. -/
theorem step_next_mem_eq_of_store {s t : State} (h : step s = .next t)
    (hb : s.byteAt s.ip = Opcode.movRegMem.byte) :
    (s.wordAt (s.ip + 2)).toNat + 2 ≤ s.size ∧
      t.mem = s.mem.setWord (s.wordAt (s.ip + 2)).toNat
        ((s.atIp (s.ip + 4)).reg (regOf (s.byteAt (s.ip + 1)))) := by
  rcases exec_next (exec_instrAtIp_of_step h hb) with ⟨fb, addr, hi, hin, rfl⟩ | ⟨hne, -⟩
  · cases hi
    exact ⟨hin, rfl⟩
  · exact absurd rfl (hne _ _)

theorem fetch8_atIp_inside {s : State} {a : Word} (h : a.toNat + 1 ≤ s.size) :
    fetch8 (s.atIp a) = .ok (s.byteAt a, s.atIp (a + 1)) := by
  rw [fetch8_inside (by simpa using h), State.ip_atIp, State.byteAt_atIp, State.atIp_atIp]

theorem fetch16_atIp_inside {s : State} {a : Word} (h : a.toNat + 2 ≤ s.size) :
    fetch16 (s.atIp a) = .ok (s.wordAt a, s.atIp (a + 2)) := by
  rw [fetch16_inside_wordAt (by simpa using h), State.ip_atIp, State.wordAt_atIp, State.atIp_atIp]

theorem step_atIp_inside {s : State} {a : Word} (h : a.toNat + 1 ≤ s.size) :
    step (s.atIp a) = execute (s.byteAt a) (s.atIp (a + 1)) := by
  rw [step_opcode_inside (by simpa using h), State.ip_atIp, State.byteAt_atIp, State.atIp_atIp]

/-- Settles O38: the state after the store, with `ip` at its address, fetches the stored bytes. -/
theorem storeIsSeenByTheNextFetch : Obligations.StoreIsSeenByTheNextFetch := by
  unfold Obligations.StoreIsSeenByTheNextFetch
  rintro s t addr v h hb rfl rfl
  obtain ⟨hin, hm⟩ := step_next_mem_eq_of_store h hb
  have h16 : (s.wordAt (s.ip + 2)).toNat + 2 ≤ t.size := by rwa [State.size_of_setWord hm]
  have h8 : (s.wordAt (s.ip + 2)).toNat + 1 ≤ t.size := Nat.le_of_succ_le h16
  rw [fetch8_atIp_inside h8, fetch16_atIp_inside h16, step_atIp_inside h8, State.byteAt_hi_of_setWord hm,
    State.wordAt_of_setWord hin hm]
  exact ⟨⟨_, rfl⟩, ⟨_, rfl⟩, rfl⟩

/-! ### One transaction (`20_memory.md` R33, R34) -/

@[simp] theorem Access.ofRead_kind (m : Memory) (a : Word) (w : Width) : (Access.ofRead m a w).kind = .read := by
  cases w <;> rfl

@[simp] theorem Access.ofRead_addr (m : Memory) (a : Word) (w : Width) : (Access.ofRead m a w).addr = a := by
  cases w <;> rfl

@[simp] theorem Access.ofRead_width (m : Memory) (a : Word) (w : Width) : (Access.ofRead m a w).width = w := by
  cases w <;> rfl

@[simp] theorem Access.done_ofRead (s : State) (a : Word) (w : Width) :
    (Access.ofRead s.mem a w).done = true ↔ a.toNat + w.bytes ≤ s.size := by
  cases w <;> simp [Access.ofRead, Access.done, State.size]

@[simp] theorem Access.done_ofWrite (s : State) (a v : Word) :
    (Access.ofWrite s.mem a v).done = true ↔ a.toNat + 2 ≤ s.size := by
  simp [Access.ofWrite, Access.done, State.size, Width.bytes]

/-- A read changes no memory. -/
@[simp] theorem Access.applyTo_ofRead (m m' : Memory) (a : Word) (w : Width) :
    Access.applyTo m (Access.ofRead m' a w) = m := by
  cases w <;> rfl

/-- A write inside memory stores its word. -/
theorem Access.applyTo_ofWrite_inside {s : State} {a : Word} (v : Word) (h : a.toNat + 2 ≤ s.size) :
    Access.applyTo s.mem (Access.ofWrite s.mem a v) = s.mem.setWord a.toNat v := by
  have hin : s.mem.inBounds a.toNat .w16 := h
  simp [Access.applyTo, Access.ofWrite, hin]

/-! ### The fetches of a step as transactions (`20_memory.md` R38) -/

theorem operandAccesses_cons (s : State) (a : Word) (w : Width) (ws : List Width) :
    operandAccesses s.mem a (w :: ws) = Access.ofRead s.mem a w ::
      if a.toNat + w.bytes ≤ s.size then operandAccesses s.mem (a + BitVec.ofNat 16 w.bytes) ws else [] := by
  simp [operandAccesses]

/-- The fetches all move their bytes exactly when they are all inside memory. -/
theorem forall_done_operandAccesses (s : State) (a : Word) (ws : List Width) :
    (∀ x ∈ operandAccesses s.mem a ws, x.done = true) ↔ s.operandsInBounds a ws = true := by
  induction ws generalizing a with
  | nil => simp [operandAccesses, State.operandsInBounds]
  | cons w ws ih =>
    rw [operandAccesses_cons, List.forall_mem_cons, State.operandsInBounds, Bool.and_eq_true, Access.done_ofRead,
      decide_eq_true_iff]
    refine and_congr_right fun hin => ?_
    rw [if_pos hin, ih]

/-- Fetches change no memory, done in order on any memory. -/
theorem foldl_operandAccesses (m m' : Memory) (a : Word) (ws : List Width) :
    (operandAccesses m' a ws).foldl Access.applyTo m = m := by
  induction ws generalizing a with
  | nil => rfl
  | cons w ws ih =>
    rw [operandAccesses, List.foldl_cons, Access.applyTo_ofRead]
    split
    · exact ih _
    · rfl

/-- All transactions of a step on an opcode's byte: its fetches up to the first that leaves memory, and, if
none does, the data access of the instruction at `ip`. -/
theorem stepAccesses_eq {s : State} {o : Opcode} (hb : s.byteAt s.ip = o.byte) :
    stepAccesses s = operandAccesses s.mem s.ip (.w8 :: o.format.widths) ++
      if s.fetchable o = true then
        dataAccesses (s.instrAtIp o) (s.atIp (s.ip + BitVec.ofNat 16 o.length))
      else [] := by
  have ho : Opcode.ofByte (s.byteAt s.ip) = some o := by rw [hb, Opcode.ofByte_byte]
  rw [operandAccesses_cons, stepAccesses, Width.bytes]
  rcases Nat.lt_or_ge s.size (s.ip.toNat + 1) with hout | hin
  · have hf : ¬ s.fetchable o = true := fun hf =>
      absurd (of_decide_eq_true (Bool.and_eq_true_iff.mp hf).1) (Nat.not_le.mpr hout)
    rw [fetch8_outside hout, if_neg (Nat.not_le.mpr hout), if_neg hf]
    rfl
  · rw [fetch8_inside hin, if_pos hin]
    by_cases hf : s.fetchable o = true
    · simp only [ho, fetchInstr, fetchOperands_instrAtIp hf, if_pos hf, State.atIp_mem, State.ip_atIp]
      rfl
    · have hops : (s.atIp (s.ip + 1)).operandsInBounds (s.atIp (s.ip + 1)).ip o.format.widths ≠ true := by
        rw [State.operandsInBounds_atIp, State.ip_atIp]
        exact fun h => hf (Bool.and_eq_true_iff.mpr ⟨decide_eq_true hin, h⟩)
      obtain ⟨a, w, -, herr⟩ := fetchOperands_outside hops
      simp only [ho, fetchInstr, herr, if_neg hf, State.atIp_mem, State.ip_atIp]
      rfl

theorem stepAccesses_of_fetchable {s : State} {o : Opcode} (h : s.fetchable o = true)
    (hb : s.byteAt s.ip = o.byte) :
    stepAccesses s = operandAccesses s.mem s.ip (.w8 :: o.format.widths) ++
      dataAccesses (s.instrAtIp o) (s.atIp (s.ip + BitVec.ofNat 16 o.length)) := by
  rw [stepAccesses_eq hb, if_pos h]

/-! ### The data access of an effect (`20_memory.md` R37) -/

/-- An effect completes exactly when its data access, if it has one, moves its bytes. -/
theorem exec_completes_iff (i : Instr) (s : State) :
    (∃ t, exec i s = .next t) ↔ ∀ x ∈ dataAccesses i s, x.done = true := by
  cases i with
  | movLitReg lit rb => exact iff_of_true ⟨_, rfl⟩ (by simp [dataAccesses])
  | movRegReg fb tb => exact iff_of_true ⟨_, rfl⟩ (by simp [dataAccesses])
  | movRegMem fb addr =>
    rcases Nat.lt_or_ge s.size (addr.toNat + 2) with hb | hb
    · simp [exec_movRegMem_outside fb hb, dataAccesses, hb]
    · simp [exec_movRegMem_inside fb hb, dataAccesses, hb]
  | movMemReg addr tb =>
    rcases Nat.lt_or_ge s.size (addr.toNat + 2) with hb | hb
    · simp [exec_movMemReg_outside tb hb, dataAccesses, Width.bytes, hb]
    · simp [exec_movMemReg_inside tb hb, dataAccesses, Width.bytes, hb]
  | addRegReg b1 b2 => exact iff_of_true ⟨_, rfl⟩ (by simp [dataAccesses])
  | jmpNotEql val tgt => exact iff_of_true ⟨_, rfl⟩ (by simp [dataAccesses])

/-- The data access of any instruction but the store changes no memory. -/
theorem foldl_dataAccesses_of_not_store {i : Instr} (h : ∀ fb addr, i ≠ .movRegMem fb addr) (m : Memory)
    (s : State) : (dataAccesses i s).foldl Access.applyTo m = m := by
  cases i with
  | movRegMem fb addr => exact absurd rfl (h fb addr)
  | _ => simp [dataAccesses]

/-- An effect that completes changes memory by its data access alone. -/
theorem exec_next_mem {i : Instr} {s t : State} (h : exec i s = .next t) :
    t.mem = (dataAccesses i s).foldl Access.applyTo s.mem := by
  rcases exec_next h with ⟨fb, addr, rfl, hin, rfl⟩ | ⟨hne, n, v, rfl⟩
  · exact (Access.applyTo_ofWrite_inside _ hin).symm
  · exact (foldl_dataAccesses_of_not_store hne _ _).symm

/-! ### A step and its transactions -/

/-- A step that completes on an opcode's byte has fetched it and its operands inside memory. -/
theorem fetchable_of_step {s t : State} {o : Opcode} (h : step s = .next t) (hb : s.byteAt s.ip = o.byte) :
    s.fetchable o = true := by
  obtain ⟨i, hf, ho, -, -⟩ := step_next h
  rw [hb, Opcode.ofByte_byte, Option.some.injEq] at ho
  exact ho ▸ hf

/-- A step that completes has an opcode at `ip`. -/
theorem exists_opcode_of_step {s t : State} (h : step s = .next t) : ∃ o : Opcode, s.byteAt s.ip = o.byte := by
  obtain ⟨i, -, ho, -, -⟩ := step_next h
  exact ⟨i.opcode, Opcode.ofByte_eq_some ho⟩

/-- A step on an opcode's byte completes exactly when its fetches stay inside memory and its effect
completes. -/
theorem step_completes_iff {s : State} {o : Opcode} (hb : s.byteAt s.ip = o.byte) :
    (∃ t, step s = .next t) ↔ s.fetchable o = true ∧
      ∃ t, exec (s.instrAtIp o) (s.atIp (s.ip + BitVec.ofNat 16 o.length)) = .next t := by
  constructor
  · rintro ⟨t, h⟩
    exact ⟨fetchable_of_step h hb, t, exec_instrAtIp_of_step h hb⟩
  · rintro ⟨hf, t, h⟩
    exact ⟨t, by rw [step_of_fetchable hf hb, h]⟩

/-- A step on an opcode's byte completes exactly when all its transactions move their bytes. -/
theorem step_completes_iff_forall_done {s : State} {o : Opcode} (hb : s.byteAt s.ip = o.byte) :
    (∃ t, step s = .next t) ↔ ∀ x ∈ stepAccesses s, x.done = true := by
  rw [step_completes_iff hb, stepAccesses_eq hb, List.forall_mem_append, forall_done_operandAccesses]
  refine and_congr_right fun hf => ?_
  rw [if_pos hf, exec_completes_iff]

/-- Settles O44: fetch by fetch and then the data access, for the opcode at `ip`. -/
theorem stepCompletesWhenItsTransactionsDo : Obligations.StepCompletesWhenItsTransactionsDo := by
  unfold Obligations.StepCompletesWhenItsTransactionsDo
  intro s
  rw [← and_assoc, ← Opcode.exists_byte_eq_iff]
  constructor
  · rintro ⟨t, h⟩
    obtain ⟨o, hb⟩ := exists_opcode_of_step h
    exact ⟨⟨o, hb⟩, (step_completes_iff_forall_done hb).mp ⟨t, h⟩⟩
  · rintro ⟨⟨o, hb⟩, hdone⟩
    exact (step_completes_iff_forall_done hb).mpr hdone

/-- Settles O46: fetches change no memory, and the effect changes it by its data access. -/
theorem transactionsAccountForMemory : Obligations.TransactionsAccountForMemory := by
  unfold Obligations.TransactionsAccountForMemory
  intro s t h
  obtain ⟨o, hb⟩ := exists_opcode_of_step h
  rw [stepAccesses_of_fetchable (fetchable_of_step h hb) hb, List.foldl_append, foldl_operandAccesses]
  exact exec_next_mem (exec_instrAtIp_of_step h hb)

/-! ### The row of an opcode as transactions (`20_memory.md` R38) -/

/-- Direction, address and width of a transaction, without the value it moved. -/
def Access.shape (x : Access) : AccessKind × Word × Width := (x.kind, x.addr, x.width)

@[simp] theorem Access.shape_ofRead (m : Memory) (a : Word) (w : Width) :
    (Access.ofRead m a w).shape = (.read, a, w) := by
  cases w <;> rfl

@[simp] theorem Access.shape_ofWrite (m : Memory) (a v : Word) :
    (Access.ofWrite m a v).shape = (.write, a, .w16) := rfl

/-- Reads of the given widths from an address on, each where the one before it ends. -/
def readShapes (a : Word) : List Width → List (AccessKind × Word × Width)
  | [] => []
  | w :: ws => (.read, a, w) :: readShapes (a + BitVec.ofNat 16 w.bytes) ws

theorem map_shape_operandAccesses {s : State} {a : Word} {ws : List Width}
    (h : s.operandsInBounds a ws = true) : (operandAccesses s.mem a ws).map Access.shape = readShapes a ws := by
  induction ws generalizing a with
  | nil => rfl
  | cons w ws ih =>
    obtain ⟨hin, hrest⟩ := Bool.and_eq_true_iff.mp h
    rw [operandAccesses_cons, if_pos (of_decide_eq_true hin), List.map_cons, Access.shape_ofRead, ih hrest,
      readShapes]

/-- The shapes of an opcode's row with its first byte at `ip`, written out as R38 lists them;
`map_shape_stepAccesses_eq_row` ties them to the step. -/
def State.rowShapes (s : State) : Opcode → List (AccessKind × Word × Width)
  | .movLitReg => [(.read, s.ip, .w8), (.read, s.ip + 1, .w16), (.read, s.ip + 3, .w8)]
  | .movRegReg => [(.read, s.ip, .w8), (.read, s.ip + 1, .w8), (.read, s.ip + 2, .w8)]
  | .movRegMem => [(.read, s.ip, .w8), (.read, s.ip + 1, .w8), (.read, s.ip + 2, .w16),
      (.write, s.wordAt (s.ip + 2), .w16)]
  | .movMemReg => [(.read, s.ip, .w8), (.read, s.ip + 1, .w16), (.read, s.ip + 3, .w8),
      (.read, s.wordAt (s.ip + 1), .w16)]
  | .addRegReg => [(.read, s.ip, .w8), (.read, s.ip + 1, .w8), (.read, s.ip + 2, .w8)]
  | .jmpNotEql => [(.read, s.ip, .w8), (.read, s.ip + 1, .w16), (.read, s.ip + 3, .w16)]

/-- The fetches by format and the data access of the instruction at `ip` make up the row. -/
theorem State.rowShapes_eq (s : State) (o : Opcode) :
    readShapes s.ip (.w8 :: o.format.widths) ++
      (dataAccesses (s.instrAtIp o) (s.atIp (s.ip + BitVec.ofNat 16 o.length))).map Access.shape =
      s.rowShapes o := by
  cases o <;>
    simp [readShapes, Opcode.format, Format.widths, Width.bytes, BitVec.add_assoc, State.instrAtIp,
      dataAccesses, State.rowShapes]

/-- The transactions of a step that completes on an opcode's byte are those of its row, in order. -/
theorem map_shape_stepAccesses_eq_row {s t : State} {o : Opcode} (h : step s = .next t)
    (hb : s.byteAt s.ip = o.byte) : (stepAccesses s).map Access.shape = s.rowShapes o := by
  have hf := fetchable_of_step h hb
  rw [stepAccesses_of_fetchable hf hb, List.map_append, map_shape_operandAccesses hf, s.rowShapes_eq]

/-- Settles O43: the shape of each row, read off its format and its data access. -/
theorem transactionsFollowTheRow : Obligations.TransactionsFollowTheRow := by
  unfold Obligations.TransactionsFollowTheRow
  rintro s t a h rfl
  exact ⟨map_shape_stepAccesses_eq_row (o := .movLitReg) h, map_shape_stepAccesses_eq_row (o := .movRegReg) h,
    map_shape_stepAccesses_eq_row (o := .movRegMem) h, map_shape_stepAccesses_eq_row (o := .movMemReg) h,
    map_shape_stepAccesses_eq_row (o := .addRegReg) h, map_shape_stepAccesses_eq_row (o := .jmpNotEql) h⟩

end Sys2Proof.Machine
end

section
/-! SUPPORT. The obligations about the encoding (`30_encoding.md`), with the lemmas they rest on: the decoder
inverts the encoder, the bytes at `ip` are the encoding of the instruction a step runs, a register byte acts
through its register alone, and a table word placed at `ip` is read back from there. -/

namespace Sys2Proof

/-! ### The decoder inverts the encoder (R50, R52, R53) -/

theorem decodeOperands_encodeOperands (i : Instr) (rest : List Byte) :
    decodeOperands i.opcode (encodeOperands i ++ rest) = some (i, rest) := by
  cases i <;> simp [Instr.opcode, encodeOperands, wordBytes, decodeOperands]

/-- Operands that decode are the operand bytes of an instruction of that opcode. -/
theorem decodeOperands_eq_some {o : Opcode} {bytes rest : List Byte} {i : Instr}
    (h : decodeOperands o bytes = some (i, rest)) : i.opcode = o ∧ bytes = encodeOperands i ++ rest := by
  unfold decodeOperands at h
  split at h <;> cases h <;> simp [Instr.opcode, encodeOperands, wordBytes]

theorem decode_of_operands {o : Opcode} {bytes rest : List Byte} {i : Instr}
    (h : decodeOperands o bytes = some (i, rest)) : decode (o.byte :: bytes) = .instr i rest := by
  simp [decode, h]

theorem decode_of_ofByte_eq_none {op : Byte} (h : Opcode.ofByte op = none) (bytes : List Byte) :
    decode (op :: bytes) = .unknownInstruction op := by
  simp [decode, h]

/-- Bytes that decode begin with an opcode whose operands decode from the bytes after it. -/
theorem decode_eq_instr {bytes rest : List Byte} {i : Instr} (h : decode bytes = .instr i rest) :
    ∃ o tail, bytes = Opcode.byte o :: tail ∧ decodeOperands o tail = some (i, rest) := by
  unfold decode at h
  split at h
  · cases h
  · next op tail =>
    split at h
    · cases h
    · next o ho =>
      split at h
      · cases h
      · next hops => cases h; exact ⟨o, tail, by rw [Opcode.ofByte_eq_some ho], hops⟩

/-- Bytes decode to an instruction exactly when they begin with its encoding. -/
theorem decode_eq_instr_iff {bytes rest : List Byte} {i : Instr} :
    decode bytes = .instr i rest ↔ bytes = encode i ++ rest := by
  constructor
  · intro h
    obtain ⟨o, tail, rfl, hops⟩ := decode_eq_instr h
    obtain ⟨rfl, rfl⟩ := decodeOperands_eq_some hops
    rfl
  · rintro rfl
    exact decode_of_operands (decodeOperands_encodeOperands i rest)

/-- Settles O3: the operand bytes of each instruction are read back by its opcode. -/
theorem decodeReadsBackEncode : Obligations.DecodeReadsBackEncode := by
  unfold Obligations.DecodeReadsBackEncode
  exact fun i rest _ => decode_eq_instr_iff.mpr rfl

/-- Settles O4: the opcode byte and the operands that were read are those of the encoding. -/
theorem decodedBytesAreTheEncoding : Obligations.DecodedBytesAreTheEncoding := by
  unfold Obligations.DecodedBytesAreTheEncoding
  exact fun bytes rest i h => decode_eq_instr_iff.mp h

/-- No two instructions have the same bytes. -/
theorem encode_injective : Function.Injective encode := by
  intro i j h
  have hi : decode (encode i) = .instr i [] := decode_eq_instr_iff.mpr (List.append_nil _).symm
  rw [h, decode_eq_instr_iff.mpr (List.append_nil _).symm] at hi
  cases hi
  rfl

/-! ### The rows of the opcode map (R51, R53, R58, R62) -/

/-- Settles O2: the operands of each row in fetch order, and the bytes that are no opcode. -/
theorem opcodeByteSelectsInstruction : Obligations.OpcodeByteSelectsInstruction := by
  unfold Obligations.OpcodeByteSelectsInstruction
  intro b1 b2 b3 b4 rest
  simp only [← beWord_eq_append]
  exact ⟨decode_of_operands (o := .movLitReg) rfl, decode_of_operands (o := .movRegReg) rfl,
    decode_of_operands (o := .movRegMem) rfl, decode_of_operands (o := .movMemReg) rfl,
    decode_of_operands (o := .addRegReg) rfl, decode_of_operands (o := .jmpNotEql) rfl,
    fun op hop => decode_of_ofByte_eq_none ((Opcode.ofByte_eq_none_iff op).mpr hop) rest⟩

/-- Settles O1: each row's bytes are the encoding of its instruction. -/
theorem listingRowsDecode : Obligations.ListingRowsDecode := by
  unfold Obligations.ListingRowsDecode
  refine ⟨?_, ?_, ?_, ?_, ?_, ?_⟩ <;> exact decode_eq_instr_iff.mpr rfl

theorem encodeShape (i : Instr) : Laws.EncodeShape.Statement i := by
  cases i with
  | movLitReg lit rb => exact Laws.EncodeShape.movLitReg lit rb
  | movRegReg fb tb => exact Laws.EncodeShape.movRegReg fb tb
  | movRegMem fb addr => exact Laws.EncodeShape.movRegMem fb addr
  | movMemReg addr tb => exact Laws.EncodeShape.movMemReg addr tb
  | addRegReg b1 b2 => exact Laws.EncodeShape.addRegReg b1 b2
  | jmpNotEql val tgt => exact Laws.EncodeShape.jmpNotEql val tgt

@[simp] theorem length_encode (i : Instr) : (encode i).length = i.length := by
  obtain ⟨-, -, hlen⟩ := encodeShape i
  exact hlen

/-- The lengths of R51 by opcode byte. -/
theorem Opcode.length_eq_of_byte (o : Opcode) :
    o.length = if o.byte = 0x11 ∨ o.byte = 0x14 then 3 else if o.byte = 0x15 then 5 else 4 := by
  cases o <;> rfl

theorem Opcode.length_le_maxInstrBytes (o : Opcode) : o.length ≤ Config.maxInstrBytes := by
  cases o <;> decide

/-- Four bytes after an opcode byte hold the operands of every row. -/
theorem exists_decodeOperands_eq_some (o : Opcode) (b1 b2 b3 b4 : Byte) (rest : List Byte) :
    ∃ i tail, decodeOperands o (b1 :: b2 :: b3 :: b4 :: rest) = some (i, tail) := by
  cases o <;> exact ⟨_, _, rfl⟩

/-- Settles O5: by whether the first byte is an opcode; if it is, its operands are among the next four bytes. -/
theorem decodingIsTotalByOpcode : Obligations.DecodingIsTotalByOpcode := by
  unfold Obligations.DecodingIsTotalByOpcode
  intro op b1 b2 b3 b4 rest
  cases ho : Opcode.ofByte op with
  | none => exact .inr ⟨decode_of_ofByte_eq_none ho _, (Opcode.ofByte_eq_none_iff op).mp ho⟩
  | some o =>
    obtain rfl := Opcode.ofByte_eq_some ho
    obtain ⟨i, tail, hops⟩ := exists_decodeOperands_eq_some o b1 b2 b3 b4 rest
    obtain ⟨rfl, hbytes⟩ := decodeOperands_eq_some hops
    obtain ⟨hlo, hhi⟩ := (Opcode.exists_byte_eq_iff _).mp ⟨i.opcode, rfl⟩
    refine .inl ⟨i, tail, decode_of_operands hops, hlo, hhi, rfl, i.opcode.length_eq_of_byte, ?_⟩
    rw [hbytes]
    exact List.drop_left' (length_encode i)

/-! ### Table words (R52, log entry 7) -/

@[simp] theorem length_bigEndianBytes (n w : Nat) : (bigEndianBytes n w).length = n := by
  induction n with
  | zero => rfl
  | succ n ih => rw [bigEndianBytes, List.length_cons, ih]

/-- A table word no wider than the longest instruction is laid out in that instruction's bytes. -/
theorem length_tableWordBytes {nbits : Nat} (h : nbits ≤ 40) (w : Nat) :
    (tableWordBytes nbits w).length = Config.maxInstrBytes := by
  have hn : (nbits + 7) / 8 ≤ Config.maxInstrBytes := by rw [Config.maxInstrBytes]; omega
  rw [tableWordBytes, List.length_append, length_bigEndianBytes, List.length_replicate, Nat.add_sub_cancel' hn]

theorem decode_of_decodeTableWord {nbits w : Nat} {i : Instr} (h : decodeTableWord nbits w = some i) :
    ∃ rest, decode (tableWordBytes nbits w) = .instr i rest := by
  unfold decodeTableWord at h
  split at h
  · next j rest hd =>
    split at h
    · cases h; exact ⟨rest, hd⟩
    · cases h
  · cases h
  · cases h

end Sys2Proof

namespace Sys2Proof.Machine

/-! ### The bytes at `ip` and the instruction a step runs (R50, `40_cycle.md` R70, R74) -/

theorem State.take_bytesFrom (s : State) {k n : Nat} (h : k ≤ n) (a : Word) :
    (s.bytesFrom n a).take k = s.bytesFrom k a := by
  induction k generalizing n a with
  | zero => rfl
  | succ k ih =>
    cases n with
    | zero => exact absurd h (Nat.not_succ_le_zero k)
    | succ n => rw [State.bytesFrom, List.take_succ_cons, ih (Nat.le_of_succ_le_succ h), State.bytesFrom]

/-- The bytes of an opcode's row at `ip` are the encoding of the instruction read from there. -/
theorem State.bytesFrom_ip_eq_encode {s : State} {o : Opcode} (hb : s.byteAt s.ip = o.byte) :
    s.bytesFrom o.length s.ip = encode (s.instrAtIp o) := by
  cases o <;>
    simp [State.bytesFrom, hb, encode, Instr.opcode, encodeOperands, wordBytes, State.instrAtIp,
      State.wordAt_eq_beWord, BitVec.add_assoc]

/-- Where the bytes of an instruction stand at `ip`, its opcode's byte does. -/
theorem State.codeAtIp.byteAt_ip {s : State} {i : Instr} (h : s.codeAtIp i) :
    s.byteAt s.ip = i.opcode.byte := by
  obtain ⟨-, hbytes⟩ := h
  rw [Instr.length, Opcode.length, Nat.add_comm, State.bytesFrom, encode] at hbytes
  exact (List.cons.inj hbytes).1

theorem State.codeAtIp.instrAtIp_eq {s : State} {i : Instr} (h : s.codeAtIp i) :
    s.instrAtIp i.opcode = i := by
  have hb := h.byteAt_ip
  obtain ⟨-, hbytes⟩ := h
  exact encode_injective ((State.bytesFrom_ip_eq_encode hb).symm.trans hbytes)

theorem step_of_codeAtIp {s : State} {i : Instr} (h : s.codeAtIp i) :
    step s = exec i (s.atIp (s.ip + BitVec.ofNat 16 i.length)) := by
  have hstep := step_of_fetchable h.1 h.byteAt_ip
  rwa [h.instrAtIp_eq] at hstep

/-- Settles O14: the bytes at `ip` determine the instruction, since the encoding is injective. -/
theorem stepRunsTheEncodedInstruction : Obligations.StepRunsTheEncodedInstruction := by
  unfold Obligations.StepRunsTheEncodedInstruction
  exact fun s i h => step_of_codeAtIp h

/-! ### An invalid opcode (R58, `20_memory.md` R38) -/

theorem Access.ofRead_byte_inside {s : State} {a : Word} (h : a.toNat + 1 ≤ s.size) :
    Access.ofRead s.mem a .w8 = ⟨.read, a, .w8, some (s.byteAt a).toNat⟩ :=
  congrArg (Access.mk .read a .w8) (if_pos h)

theorem stepAccesses_unknown {s : State} (h : s.ip.toNat + 1 ≤ s.size)
    (ho : Opcode.ofByte (s.byteAt s.ip) = none) :
    stepAccesses s = [⟨.read, s.ip, .w8, some (s.byteAt s.ip).toNat⟩] := by
  simp only [stepAccesses, Access.ofRead_byte_inside h, fetch8_inside h, ho]

/-- Settles O15: the opcode's fetch is the one transaction, and the fault leaves `ip` past it. -/
theorem invalidOpcodeFaultsPastItsByte : Obligations.InvalidOpcodeFaultsPastItsByte := by
  unfold Obligations.InvalidOpcodeFaultsPastItsByte
  intro s h hop
  have ho := (Opcode.ofByte_eq_none_iff _).mpr hop
  exact ⟨stepAccesses_unknown h ho, _, step_unknown h ho, s.ip_atIp _, s.regsKeptBut_setReg .ip _,
    State.memoryKept_of_mem_eq rfl⟩

/-! ### Register bytes (R56, R57) -/

@[simp] theorem RegName.number_ofNumber (i : Fin Config.numRegs) : (RegName.ofNumber i).number = i.val := by
  revert i
  decide

@[simp] theorem number_regOf (b : Byte) : (regOf b).number = b.toNat % 10 := RegName.number_ofNumber _

/-- Bytes equal modulo 10 select one register. -/
theorem regOf_congr {b b' : Byte} (h : b.toNat % 10 = b'.toNat % 10) : regOf b = regOf b' :=
  congrArg RegName.ofNumber (Fin.ext h)

@[simp] theorem regOf_byte (n : RegName) : regOf n.byte = n := by
  cases n <;> rfl

@[simp] theorem readOperand_byte (n : RegName) (s : State) : readOperand n.byte s = s.reg n := by
  rw [readOperand, regOf_byte]

@[simp] theorem writeOperand_byte (n : RegName) (w : Word) (s : State) :
    writeOperand n.byte w s = s.setReg n w.toNat := by
  rw [writeOperand, regOf_byte]

/-! ### The effects as equations (`41_mov.md`, `42_add.md`) -/

theorem exec_movLitReg (lit : Word) (rb : Byte) (s : State) :
    exec (.movLitReg lit rb) s = .next (writeOperand rb lit s) := rfl

theorem exec_movRegReg (fb tb : Byte) (s : State) :
    exec (.movRegReg fb tb) s = .next (writeOperand tb (readOperand fb s) s) := rfl

theorem exec_movRegMem (fb : Byte) (addr : Word) (s : State) :
    exec (.movRegMem fb addr) s = finish (memWrite16 addr (readOperand fb s) s) := rfl

theorem exec_movMemReg (addr : Word) (tb : Byte) (s : State) :
    exec (.movMemReg addr tb) s = finish ((memRead16 addr s).map fun v => writeOperand tb v s) := rfl

theorem exec_addRegReg (b1 b2 : Byte) (s : State) :
    exec (.addRegReg b1 b2) s = .next (s.setReg .acc (exactSum (readOperand b1 s) (readOperand b2 s))) := rfl

/-- A store's fault does not depend on its register byte. -/
theorem exec_movRegMem_fault_any_byte {b : Byte} {addr : Word} {s : State} {f : Fault}
    (h : exec (.movRegMem b addr) s = .fault f) (c : Byte) : exec (.movRegMem c addr) s = .fault f := by
  rcases exec_fault h with ⟨fb, a, hi, hout, rfl⟩ | ⟨a, tb, hi, -, -⟩
  · cases hi; exact exec_movRegMem_outside c hout
  · cases hi

/-- A load's fault does not depend on its register byte. -/
theorem exec_movMemReg_fault_any_byte {b : Byte} {addr : Word} {s : State} {f : Fault}
    (h : exec (.movMemReg addr b) s = .fault f) (c : Byte) : exec (.movMemReg addr c) s = .fault f := by
  rcases exec_fault h with ⟨fb, a, hi, -, -⟩ | ⟨a, tb, hi, hout, rfl⟩
  · cases hi
  · cases hi; exact exec_movMemReg_outside c hout

theorem exec_ne_unknownRegister (i : Instr) (s t : State) (name : String) :
    exec i s ≠ .fault (.unknownRegister name t) := by
  intro h
  rcases exec_fault h with ⟨_, _, -, -, hf⟩ | ⟨_, _, -, -, hf⟩ <;> cases hf

/-- Settles O6: a register byte acts through the register it selects alone, and only an address faults. -/
theorem registerByteIsReducedModuloTen : Obligations.RegisterByteIsReducedModuloTen := by
  unfold Obligations.RegisterByteIsReducedModuloTen
  refine ⟨fun b => ⟨number_regOf b, ?_⟩, fun b b' c w s h => ?_, fun b c w s => ?_, exec_ne_unknownRegister⟩
  · rw [RegName.bankOffset, number_regOf, Nat.mul_comm]
  · simp only [exec_movLitReg, exec_movRegReg, exec_movRegMem, exec_movMemReg, exec_addRegReg, readOperand,
      writeOperand, regOf_congr h, and_self]
  · exact ⟨⟨_, exec_movLitReg w b s⟩, ⟨_, exec_movRegReg b c s⟩, ⟨_, exec_addRegReg b c s⟩,
      fun h => ⟨_, exec_movRegMem_inside b h⟩, fun h => ⟨_, exec_movMemReg_inside b h⟩,
      fun _ h => exec_movRegMem_fault_any_byte h c, fun _ h => exec_movMemReg_fault_any_byte h c⟩

/-! ### The idioms as effects (R63) -/

theorem State.reg_setReg_toNat (s : State) (n k : RegName) (w : Word) :
    (s.setReg n w.toNat).reg k = if k = n then w else s.reg k := by
  rw [State.reg_setReg, BitVec.ofNat_toNat, BitVec.setWidth_eq]

theorem State.reg_atIp (s : State) (a : Word) (n : RegName) :
    (s.atIp a).reg n = if n = .ip then a else s.reg n := s.reg_setReg_toNat .ip n a

theorem exec_idiomJump (target : Word) (s : State) : exec (idiomJump target) s = .next (s.atIp target) := by
  rw [idiomJump, exec_movLitReg, writeOperand_byte, State.atIp]

theorem exec_idiomJumpRegister (r : RegName) (s : State) :
    exec (idiomJumpRegister r) s = .next (s.atIp (s.reg r)) := by
  rw [idiomJumpRegister, exec_movRegReg, readOperand_byte, writeOperand_byte, State.atIp]

theorem exec_idiomJumpMemory_inside {s : State} {addr : Word} (h : addr.toNat + 2 ≤ s.size) :
    exec (idiomJumpMemory addr) s = .next (s.atIp (s.wordAt addr)) := by
  rw [idiomJumpMemory, exec_movMemReg_inside _ h, writeOperand_byte, State.word_eq h, State.wordAt_eq_beWord,
    State.atIp]

theorem exec_idiomNextAddress (r : RegName) (s : State) :
    exec (idiomNextAddress r) s = .next (s.setReg r s.ip.toNat) := by
  rw [idiomNextAddress, exec_movRegReg, readOperand_byte, writeOperand_byte, State.ip]

theorem exec_idiomNop (s : State) : exec idiomNop s = .next s := by
  rw [idiomNop, exec_movRegReg, readOperand_byte, writeOperand_byte, State.setReg_reg_self]

/-- The value of `ip` written to a register leaves `ip` as it was, that register being `ip` included. -/
theorem State.ip_setReg_ip_toNat (s : State) (r : RegName) : (s.setReg r s.ip.toNat).ip = s.ip := by
  rw [State.ip, State.reg_setReg_toNat]
  exact ite_self _

/-- Settles O28: each idiom's effect from the state in which `ip` is past its bytes. -/
theorem idiomsHaveTheirEffects : Obligations.IdiomsHaveTheirEffects := by
  unfold Obligations.IdiomsHaveTheirEffects
  intro s target addr r
  refine ⟨fun h => ?_, fun h => ?_, fun h => ⟨fun hin => ?_, fun hout => ?_⟩, fun h => ?_, fun h => ?_,
    fun h hop => step_unknown h ((Opcode.ofByte_eq_none_iff _).mpr hop)⟩
  · rw [step_of_codeAtIp h, exec_idiomJump, State.atIp_atIp]
  · have hs : step s = exec (idiomJumpRegister r) (s.atIp (s.ip + 3)) := step_of_codeAtIp h
    rw [hs, exec_idiomJumpRegister, State.atIp_atIp, State.reg_atIp]
  · rw [step_of_codeAtIp h, exec_idiomJumpMemory_inside (s := s.atIp _) hin, State.atIp_atIp, State.wordAt_atIp]
  · have hs : step s = exec (idiomJumpMemory addr) (s.atIp (s.ip + 4)) := step_of_codeAtIp h
    exact hs.trans (exec_movMemReg_outside _ hout)
  · have hs : step s = exec (idiomNextAddress r) (s.atIp (s.ip + 3)) := step_of_codeAtIp h
    rw [exec_idiomNextAddress] at hs
    refine ⟨_, hs, by rw [State.reg_setReg_toNat, if_pos rfl, State.ip_atIp],
      by rw [State.ip_setReg_ip_toNat, State.ip_atIp], ?_, State.memoryKept_of_mem_eq rfl⟩
    exact State.regsKeptBut_of_atIp ((State.regsKeptBut_setReg _ r _).mono (by simp))
  · have hs : step s = exec idiomNop (s.atIp (s.ip + 3)) := step_of_codeAtIp h
    rw [hs, exec_idiomNop]

/-! ### Placed code (`70_reset_and_hazards.md` R143, log entry 8) -/

theorem toNat_add_ofNat_le (a : Word) (k : Nat) : (a + BitVec.ofNat 16 k).toNat ≤ a.toNat + k := by
  rw [← ofNat_toNat_add, BitVec.toNat_ofNat]
  exact Nat.mod_le _ _

/-- Code placed at an address leaves every byte outside its own addresses as it was. -/
theorem byte_placeCode_other (bytes : List Byte) (m : Memory) (a : Word) {x : Word}
    (h : ∀ k < bytes.length, x ≠ a + BitVec.ofNat 16 k) :
    (placeCode m a bytes).byte x.toNat = m.byte x.toNat := by
  induction bytes generalizing m a with
  | nil => rfl
  | cons b rest ih =>
    have hx : x ≠ a := by simpa using h 0 (Nat.succ_pos _)
    have hrest : ∀ k < rest.length, x ≠ a + 1 + BitVec.ofNat 16 k := by
      intro k hk
      have := h (k + 1) (Nat.succ_lt_succ hk)
      rwa [Nat.add_comm, BitVec.ofNat_add, ← BitVec.add_assoc] at this
    rw [placeCode, ih _ _ hrest]
    split
    · exact Memory.byte_setByte_other _ _ (BitVec.toNat_ne.mp hx)
    · rfl

/-- Code placed inside memory is read back from its address. -/
theorem bytesFrom_placeCode (bytes : List Byte) (s : State) (a : Word)
    (h : a.toNat + bytes.length ≤ s.size) :
    ({ s with mem := placeCode s.mem a bytes } : State).bytesFrom bytes.length a = bytes := by
  induction bytes generalizing s a with
  | nil => rfl
  | cons b rest ih =>
    rw [List.length_cons] at h
    have hin : s.mem.inBounds a.toNat .w8 := by
      show a.toNat + 1 ≤ s.size
      omega
    have hrest : (a + 1).toNat + rest.length ≤ s.size := by
      have : (a + 1).toNat ≤ a.toNat + 1 := toNat_add_ofNat_le a 1
      omega
    have hnext := ih { s with mem := s.mem.setByte a.toNat b } (a + 1) hrest
    have hne : ∀ k < rest.length, a ≠ a + 1 + BitVec.ofNat 16 k := by
      intro k hk
      have := s.size_le
      have hk' : k + 1 < 65536 := by omega
      bv_omega
    have hfirst : (placeCode (s.mem.setByte a.toNat b) (a + 1) rest).byte a.toNat = b := by
      rw [byte_placeCode_other rest _ _ hne, Memory.byte_setByte_same]
    rw [placeCode, if_pos hin, List.length_cons, State.bytesFrom, hnext, State.byteAt, hfirst]

/-- Operands with room for all of them before the end of memory are inside memory. -/
theorem State.operandsInBounds_of_room {s : State} {a : Word} {ws : List Width}
    (h : a.toNat + (ws.map Width.bytes).sum ≤ s.size) : s.operandsInBounds a ws = true := by
  induction ws generalizing a with
  | nil => rfl
  | cons w rest ih =>
    rw [List.map_cons, List.sum_cons] at h
    have := toNat_add_ofNat_le a w.bytes
    rw [State.operandsInBounds, Bool.and_eq_true, decide_eq_true_iff]
    exact ⟨by omega, ih (by omega)⟩

theorem State.fetchable_of_room {s : State} {o : Opcode} (h : s.ip.toNat + o.length ≤ s.size) :
    s.fetchable o = true :=
  State.operandsInBounds_of_room (by rwa [List.map_cons, List.sum_cons])

/-- Bytes at `ip` that begin with an encoding, with room for the longest instruction, are code at `ip`. -/
theorem State.codeAtIp_of_bytesFrom {s : State} {i : Instr} {rest : List Byte}
    (hroom : s.ip.toNat + Config.maxInstrBytes ≤ s.size)
    (h : s.bytesFrom Config.maxInstrBytes s.ip = encode i ++ rest) : s.codeAtIp i := by
  have hlen : i.length ≤ Config.maxInstrBytes := i.opcode.length_le_maxInstrBytes
  refine ⟨State.fetchable_of_room ((Nat.add_le_add_left hlen _).trans hroom), ?_⟩
  rw [← s.take_bytesFrom hlen, h, ← length_encode i, List.take_left]

@[simp] theorem State.ip_withFetchWord (s : State) (nbits w : Nat) : (s.withFetchWord nbits w).ip = s.ip := rfl

@[simp] theorem State.size_withFetchWord (s : State) (nbits w : Nat) :
    (s.withFetchWord nbits w).size = s.size := by
  rw [State.size, State.withFetchWord, Memory.size_placeCode, State.size]

/-- A placed table word stands at `ip`, filled up to the longest instruction. -/
theorem State.bytesFrom_withFetchWord {s : State} {nbits : Nat} (hn : nbits ≤ 40) (w : Nat)
    (hroom : s.ip.toNat + Config.maxInstrBytes ≤ s.size) :
    (s.withFetchWord nbits w).bytesFrom Config.maxInstrBytes s.ip = tableWordBytes nbits w := by
  rw [← length_tableWordBytes hn w] at hroom ⊢
  exact bytesFrom_placeCode _ s s.ip hroom

/-- Settles O57: the placed bytes are code at `ip` of the instruction they decode to. -/
theorem placedTableWordRuns : Obligations.PlacedTableWordRuns := by
  unfold Obligations.PlacedTableWordRuns
  intro s nbits w i hn hroom hdec
  obtain ⟨rest, hd⟩ := decode_of_decodeTableWord hdec
  have hcode : (s.withFetchWord nbits w).codeAtIp i := by
    refine State.codeAtIp_of_bytesFrom (rest := rest) (by rwa [State.ip_withFetchWord, State.size_withFetchWord]) ?_
    rw [State.ip_withFetchWord, State.bytesFrom_withFetchWord hn w hroom, decode_eq_instr_iff.mp hd]
  exact step_of_codeAtIp hcode

end Sys2Proof.Machine
end

section
/-! SUPPORT. The obligations about fetch and step (`40_cycle.md`), with the lemmas they rest on: what moving
`ip` leaves as it was, the bytes at `ip` that decode as code at `ip`, and the two outcomes of an effect. -/

namespace Sys2Proof.Machine

/-! ### The fetches (R71 to R73) -/

/-- Moving `ip` sets it to the address, and changes no other register and no memory. -/
theorem State.atIp_frame (s : State) (a : Word) :
    (s.atIp a).ip = a ∧ s.regsKeptBut (s.atIp a) [.ip] ∧ s.memoryKept (s.atIp a) :=
  ⟨s.ip_atIp a, s.regsKeptBut_setReg .ip _, State.memoryKept_of_mem_eq rfl⟩

/-- Settles O12: a fetch inside memory only moves `ip`, and one outside faults in the state it began in. -/
theorem fetchReadsThenAdvances : Obligations.FetchReadsThenAdvances := by
  unfold Obligations.FetchReadsThenAdvances
  exact fun s => ⟨fun h => ⟨_, fetch8_inside h, s.atIp_frame _⟩, fetch8_outside,
    fun h => ⟨_, fetch16_inside_wordAt h, s.atIp_frame _⟩, fetch16_outside⟩

/-! ### The outcomes of a step (R76, R77) -/

/-- An effect completes, or faults at its data access and leaves the state it started from. -/
theorem exec_completes_or_boundsViolation (i : Instr) (s : State) :
    (∃ t, exec i s = .next t) ∨ ∃ a k, exec i s = .fault (.boundsViolation a .w16 k s) := by
  cases h : exec i s with
  | next t => exact .inl ⟨t, rfl⟩
  | fault f =>
    rcases exec_fault h with ⟨fb, addr, -, -, rfl⟩ | ⟨addr, tb, -, -, rfl⟩
    · exact .inr ⟨addr, .write, rfl⟩
    · exact .inr ⟨addr, .read, rfl⟩
  | refused r => exact absurd h (exec_not_refused i s r)

/-- Settles O29: a fetch faults by its bounds, the dispatch by its opcode byte, an effect by its bounds. -/
theorem stepCompletesOrRaisesOneOfTwoFaults : Obligations.StepCompletesOrRaisesOneOfTwoFaults := by
  unfold Obligations.StepCompletesOrRaisesOneOfTwoFaults
  intro s
  rcases step_cases s with ⟨-, hs⟩ | ⟨-, -, hs⟩ | ⟨o, a, w, -, -, -, -, hs⟩ | ⟨i, -, -, -, hs⟩
  · exact .inr (.inr ⟨_, _, _, _, hs⟩)
  · exact .inr (.inl ⟨_, hs⟩)
  · exact .inr (.inr ⟨_, _, _, _, hs⟩)
  · rcases exec_completes_or_boundsViolation i (s.atIp (s.ip + BitVec.ofNat 16 i.length)) with
      ⟨t, ht⟩ | ⟨a, k, hf⟩
    · exact .inl ⟨t, hs.trans ht⟩
    · exact .inr (.inr ⟨a, .w16, k, _, hs.trans hf⟩)

/-! ### The step by the decoder (R60, R70, R74) -/

/-- Bytes at `ip` that decode to an instruction whose fetches are all inside memory are its code at `ip`. -/
theorem State.codeAtIp_of_decode {s : State} {i : Instr} {rest : List Byte}
    (hdec : decode (s.bytesFrom Config.maxInstrBytes s.ip) = .instr i rest)
    (hfetch : s.fetchable i.opcode = true) : s.codeAtIp i := by
  have hlen : i.length ≤ Config.maxInstrBytes := i.opcode.length_le_maxInstrBytes
  refine ⟨hfetch, ?_⟩
  rw [← s.take_bytesFrom hlen, decode_eq_instr_iff.mp hdec, ← length_encode i, List.take_left]

/-- Settles O13: bytes that decode begin with the encoding, so the instruction is code at `ip`. -/
theorem stepRunsTheDecodedInstruction : Obligations.StepRunsTheDecodedInstruction := by
  unfold Obligations.StepRunsTheDecodedInstruction
  exact fun s i rest hdec _ hfetch => step_of_codeAtIp (State.codeAtIp_of_decode hdec hfetch)

end Sys2Proof.Machine
end

section
/-! SUPPORT. The obligations about data movement (`41_mov.md`), with the lemmas they rest on: the three ways
the operand fetches of a step can go, and what a register destination and a store leave. -/

namespace Sys2Proof.Machine

/-! ### The operand fetches of a step (`40_cycle.md` R74, `60_exceptions.md` R126) -/

theorem fetch8_atIp_outside {s : State} {a : Word} (h : s.size < a.toNat + 1) :
    fetch8 (s.atIp a) = .error (.boundsViolation a .w8 .read (s.atIp a)) := by
  rw [fetch8_outside (by simpa using h), State.ip_atIp]

theorem fetch16_atIp_outside {s : State} {a : Word} (h : s.size < a.toNat + 2) :
    fetch16 (s.atIp a) = .error (.boundsViolation a .w16 .read (s.atIp a)) := by
  rw [fetch16_outside (by simpa using h), State.ip_atIp]

/-- A first operand outside memory faults with `ip` at it. -/
theorem fetchOperands_first_outside {o : Opcode} {w x : Width} (hw : o.format.widths = [w, x]) {s : State}
    {a : Word} (h : s.size < a.toNat + w.bytes) :
    fetchOperands o (s.atIp a) = .error (.boundsViolation a w .read (s.atIp a)) := by
  cases o with
  | movLitReg => cases hw; rw [fetchOperands, fetch16_atIp_outside h]; rfl
  | movRegReg => cases hw; rw [fetchOperands, fetch8_atIp_outside h]; rfl
  | movRegMem => cases hw; rw [fetchOperands, fetch8_atIp_outside h]; rfl
  | movMemReg => cases hw; rw [fetchOperands, fetch16_atIp_outside h]; rfl
  | addRegReg => cases hw; rw [fetchOperands, fetch8_atIp_outside h]; rfl
  | jmpNotEql => cases hw; rw [fetchOperands, fetch16_atIp_outside h]; rfl

/-- A second operand outside memory faults with `ip` at it, past the first operand. -/
theorem fetchOperands_second_outside {o : Opcode} {w x : Width} (hw : o.format.widths = [w, x]) {s : State}
    {a : Word} (h1 : a.toNat + w.bytes ≤ s.size)
    (h2 : s.size < (a + BitVec.ofNat 16 w.bytes).toNat + x.bytes) :
    fetchOperands o (s.atIp a) = .error (.boundsViolation (a + BitVec.ofNat 16 w.bytes) x .read
      (s.atIp (a + BitVec.ofNat 16 w.bytes))) := by
  cases o with
  | movLitReg =>
    cases hw
    simp only [fetchOperands, bind, Except.bind, fetch16_atIp_inside h1, fetch8_atIp_outside (a := a + 2) h2]
    rfl
  | movRegReg =>
    cases hw
    simp only [fetchOperands, bind, Except.bind, fetch8_atIp_inside h1, fetch8_atIp_outside (a := a + 1) h2]
    rfl
  | movRegMem =>
    cases hw
    simp only [fetchOperands, bind, Except.bind, fetch8_atIp_inside h1, fetch16_atIp_outside (a := a + 1) h2]
    rfl
  | movMemReg =>
    cases hw
    simp only [fetchOperands, bind, Except.bind, fetch16_atIp_inside h1, fetch8_atIp_outside (a := a + 2) h2]
    rfl
  | addRegReg =>
    cases hw
    simp only [fetchOperands, bind, Except.bind, fetch8_atIp_inside h1, fetch8_atIp_outside (a := a + 1) h2]
    rfl
  | jmpNotEql =>
    cases hw
    simp only [fetchOperands, bind, Except.bind, fetch16_atIp_inside h1, fetch16_atIp_outside (a := a + 2) h2]
    rfl

/-- An opcode byte inside memory and operands inside memory are all that a step fetches. -/
theorem State.fetchable_of_pair {s : State} {o : Opcode} {w x : Width} (hw : o.format.widths = [w, x])
    (h : s.ip.toNat + 1 ≤ s.size) (h1 : (s.ip + 1).toNat + w.bytes ≤ s.size)
    (h2 : (s.ip + 1 + BitVec.ofNat 16 w.bytes).toNat + x.bytes ≤ s.size) : s.fetchable o = true := by
  rw [State.fetchable, hw, State.operandsInBounds, Bool.and_eq_true, decide_eq_true_iff]
  exact ⟨h, State.operandsInBounds_pair.mpr ⟨h1, h2⟩⟩

/-- The three ways a step on an opcode's byte can go: its first operand is outside memory, its second is, or
the effect of the instruction at `ip` runs with `ip` past it. -/
theorem step_operand_paths {s : State} {o : Opcode} {w x : Width} (hw : o.format.widths = [w, x])
    (h : s.ip.toNat + 1 ≤ s.size) (hb : s.byteAt s.ip = o.byte) {b : Word}
    (hsecond : s.ip + 1 + BitVec.ofNat 16 w.bytes = b) :
    (s.size < (s.ip + 1).toNat + w.bytes →
      step s = .fault (.boundsViolation (s.ip + 1) w .read (s.atIp (s.ip + 1)))) ∧
    ((s.ip + 1).toNat + w.bytes ≤ s.size → s.size < b.toNat + x.bytes →
      step s = .fault (.boundsViolation b x .read (s.atIp b))) ∧
    ((s.ip + 1).toNat + w.bytes ≤ s.size → b.toNat + x.bytes ≤ s.size →
      step s = exec (s.instrAtIp o) (s.atIp (s.ip + BitVec.ofNat 16 o.length))) := by
  subst hsecond
  have ho : Opcode.ofByte (s.byteAt s.ip) = some o := by rw [hb, Opcode.ofByte_byte]
  exact ⟨fun hout => step_operands_error h ho (fetchOperands_first_outside hw hout),
    fun hin hout => step_operands_error h ho (fetchOperands_second_outside hw hin hout),
    fun hin hin' => step_of_fetchable (State.fetchable_of_pair hw h hin hin') hb⟩

/-! ### Register destinations (`10_state.md` R18) -/

theorem reg_writeOperand_same (b : Byte) (w : Word) (s : State) : (writeOperand b w s).reg (regOf b) = w := by
  rw [writeOperand, State.reg_setReg_toNat, if_pos rfl]

/-- A register destination holds its value, and every other register and memory are kept. -/
theorem writeOperand_frame (b : Byte) (w : Word) (s : State) :
    (writeOperand b w s).reg (regOf b) = w ∧ s.regsKeptBut (writeOperand b w s) [regOf b] ∧
      s.memoryKept (writeOperand b w s) :=
  ⟨reg_writeOperand_same b w s, s.regsKeptBut_setReg _ _, State.memoryKept_of_mem_eq rfl⟩

/-- A register destination written after `ip` has moved: `ip` stays where it moved unless it is the
destination, and the frame is that of the state before the move. -/
theorem writeOperand_atIp_frame (b : Byte) (w : Word) (s : State) (a : Word) :
    (writeOperand b w (s.atIp a)).reg (regOf b) = w ∧
      (regOf b ≠ .ip → (writeOperand b w (s.atIp a)).ip = a) ∧
      s.regsKeptBut (writeOperand b w (s.atIp a)) [.ip, regOf b] ∧
      s.memoryKept (writeOperand b w (s.atIp a)) := by
  refine ⟨reg_writeOperand_same b w _, fun hne => ?_, ?_, State.memoryKept_of_mem_eq rfl⟩
  · rw [State.ip, writeOperand, State.reg_setReg_other _ _ hne.symm, State.reg_ip_atIp]
  · exact State.regsKeptBut_of_atIp ((State.regsKeptBut_setReg _ _ _).mono (by simp))

/-! ### The effects, from every state (R80 to R84) -/

theorem exec_movMemReg_inside_wordAt {s : State} {addr : Word} (tb : Byte) (h : addr.toNat + 2 ≤ s.size) :
    exec (.movMemReg addr tb) s = .next (writeOperand tb (s.wordAt addr) s) := by
  rw [exec_movMemReg_inside tb h, State.word_eq h, State.wordAt_eq_beWord]

/-- A store that completes was inside memory, and changes memory by the source register's word alone. -/
theorem exec_movRegMem_next {s t : State} {fb : Byte} {addr : Word}
    (h : exec (.movRegMem fb addr) s = .next t) :
    addr.toNat + 2 ≤ s.size ∧ t = { s with mem := s.mem.setWord addr.toNat (s.reg (regOf fb)) } := by
  rcases exec_next h with ⟨_, _, hi, hin, rfl⟩ | ⟨hne, -⟩
  · cases hi
    exact ⟨hin, rfl⟩
  · exact absurd rfl (hne _ _)

/-- Settles O22: both moves write one register destination. -/
theorem registerMovesComplete : Obligations.RegisterMovesComplete := by
  unfold Obligations.RegisterMovesComplete
  exact ⟨fun s lit rb => ⟨_, exec_movLitReg lit rb s, writeOperand_frame rb lit s⟩,
    fun s fb tb => ⟨_, exec_movRegReg fb tb s, writeOperand_frame tb (readOperand fb s) s⟩⟩

/-- Settles O23: a store inside memory is one word set, read back byte by byte. -/
theorem storeCompletes : Obligations.StoreCompletes := by
  unfold Obligations.StoreCompletes
  refine fun s fb addr => ⟨fun hin => ?_, exec_movRegMem_outside fb⟩
  exact ⟨_, exec_movRegMem_inside fb hin, State.byteAt_hi_of_setWord rfl, State.byteAt_lo_of_setWord hin rfl,
    fun _ _ => rfl, State.memoryKeptBut16_of_setWord rfl⟩

/-- Settles O24: a load inside memory writes its word to one register destination. -/
theorem loadCompletes : Obligations.LoadCompletes := by
  unfold Obligations.LoadCompletes
  exact fun s addr tb => ⟨fun hin => ⟨_, exec_movMemReg_inside_wordAt tb hin, writeOperand_frame tb _ s⟩,
    exec_movMemReg_outside tb⟩

/-- Settles O27: the store was inside memory, so the load is too and reads the stored word. -/
theorem storeThenLoadCopiesTheRegister : Obligations.StoreThenLoadCopiesTheRegister := by
  unfold Obligations.StoreThenLoadCopiesTheRegister
  intro s t fb tb addr h
  obtain ⟨hin, rfl⟩ := exec_movRegMem_next h
  refine ⟨_, exec_movMemReg_inside_wordAt tb hin, ?_, State.regsKeptBut_setReg _ _ _⟩
  rw [reg_writeOperand_same, State.wordAt_of_setWord hin rfl]

/-! ### The steps, on every path (R80 to R83) -/

/-- Settles O16: the paths of format `WB`, then the literal in its register destination. -/
theorem stepMovLitReg : Obligations.StepMovLitReg := by
  unfold Obligations.StepMovLitReg
  rintro s _ rfl h hb
  obtain ⟨hfirst, hsecond, hrun⟩ :=
    step_operand_paths (o := .movLitReg) rfl h hb (b := s.ip + 3) (BitVec.add_assoc _ _ _)
  exact ⟨hfirst, hsecond, fun hin hin' => ⟨_, hrun hin hin', writeOperand_atIp_frame _ _ s _⟩⟩

/-- Settles O17: the paths of format `BB`, then the source, read with `ip` past the instruction. -/
theorem stepMovRegReg : Obligations.StepMovRegReg := by
  unfold Obligations.StepMovRegReg
  rintro s _ rfl h hb
  obtain ⟨hfirst, hsecond, hrun⟩ :=
    step_operand_paths (o := .movRegReg) rfl h hb (b := s.ip + 2) (BitVec.add_assoc _ _ _)
  refine ⟨hfirst, hsecond, fun hin hin' => ⟨_, hrun hin hin', ?_⟩⟩
  rw [← State.reg_atIp]
  exact writeOperand_atIp_frame _ _ s _

/-- Settles O18: the paths of format `BW`, then the store on either side of the bound. -/
theorem stepMovRegMem : Obligations.StepMovRegMem := by
  unfold Obligations.StepMovRegMem
  rintro s _ _ rfl h hb rfl
  obtain ⟨hfirst, hsecond, hrun⟩ :=
    step_operand_paths (o := .movRegMem) rfl h hb (b := s.ip + 2) (BitVec.add_assoc _ _ _)
  refine ⟨hfirst, hsecond, fun hin hin' hout => (hrun hin hin').trans (exec_movRegMem_outside _ hout),
    fun hin hin' hstore => ⟨_, (hrun hin hin').trans (exec_movRegMem_inside _ hstore), ?_, ?_, ?_,
      State.memoryKeptBut16_of_setWord rfl⟩⟩
  · rw [State.wordAt_of_setWord hstore rfl, ← State.reg_atIp]
    rfl
  · exact s.ip_atIp _
  · exact State.regsKeptBut_of_atIp fun _ _ => rfl

/-- Settles O19: the paths of format `WB`, then the load on either side of the bound. -/
theorem stepMovMemReg : Obligations.StepMovMemReg := by
  unfold Obligations.StepMovMemReg
  rintro s _ _ rfl h hb rfl
  obtain ⟨hfirst, hsecond, hrun⟩ :=
    step_operand_paths (o := .movMemReg) rfl h hb (b := s.ip + 3) (BitVec.add_assoc _ _ _)
  refine ⟨hfirst, hsecond, fun hin hin' hout => (hrun hin hin').trans (exec_movMemReg_outside _ hout),
    fun hin hin' hload => ⟨_, (hrun hin hin').trans (exec_movMemReg_inside_wordAt _ hload), ?_⟩⟩
  exact writeOperand_atIp_frame _ _ s _

end Sys2Proof.Machine
end

section
/-! SUPPORT. The obligations about addition (`42_add.md`), with the lemmas they rest on: the sum as a word,
and the addition as a register destination that is `acc` by name. -/

namespace Sys2Proof.Machine

/-! ### The effect (R90, R91) -/

/-- The exact sum, stored modulo 65536, is the sum of words. -/
theorem ofNat_exactSum (v w : Word) : BitVec.ofNat 16 (exactSum v w) = v + w := by
  rw [exactSum, ofNat_toNat_add, BitVec.ofNat_toNat, BitVec.setWidth_eq]

/-- An addition is the write of its sum to the register destination `acc`. -/
theorem exec_addRegReg_eq_writeOperand (b1 b2 : Byte) (s : State) :
    exec (.addRegReg b1 b2) s =
      .next (writeOperand RegName.acc.byte (s.reg (regOf b1) + s.reg (regOf b2)) s) := by
  simp only [exec_addRegReg, writeOperand_byte, readOperand, State.setReg, ofNat_exactSum, BitVec.ofNat_toNat,
    BitVec.setWidth_eq]

theorem exec_addRegReg_comm (b1 b2 : Byte) (s : State) :
    exec (.addRegReg b1 b2) s = exec (.addRegReg b2 b1) s := by
  rw [exec_addRegReg_eq_writeOperand, exec_addRegReg_eq_writeOperand, BitVec.add_comm]

/-- Settles O25: `acc` holds the sum of words, which is the unsigned sum and the two's-complement sum. -/
theorem addCompletes : Obligations.AddCompletes := by
  unfold Obligations.AddCompletes
  intro s b1 b2
  obtain ⟨hacc, hregs, hmem⟩ :=
    writeOperand_frame RegName.acc.byte (s.reg (regOf b1) + s.reg (regOf b2)) s
  rw [regOf_byte] at hacc hregs
  refine ⟨exec_addRegReg_comm b1 b2 s, _, exec_addRegReg_eq_writeOperand b1 b2 s, ?_, ?_, hregs, hmem⟩
  · rw [hacc, BitVec.toNat_add]
  · rw [hacc, BitVec.toInt_add]

/-! ### The step, on every path (R90) -/

/-- A write of `acc` after `ip` has moved leaves `ip` there, and the frame is that of the state before. -/
theorem writeAcc_atIp_frame (w : Word) (s : State) (a : Word) :
    (writeOperand RegName.acc.byte w (s.atIp a)).reg .acc = w ∧
      (writeOperand RegName.acc.byte w (s.atIp a)).ip = a ∧
      s.regsKeptBut (writeOperand RegName.acc.byte w (s.atIp a)) [.ip, .acc] ∧
      s.memoryKept (writeOperand RegName.acc.byte w (s.atIp a)) := by
  obtain ⟨hacc, hip, hregs, hmem⟩ := writeOperand_atIp_frame RegName.acc.byte w s a
  rw [regOf_byte] at hacc hip hregs
  exact ⟨hacc, hip (by decide), hregs, hmem⟩

/-- Settles O20: the paths of format `BB`, then the sum of the addends, read with `ip` past the instruction. -/
theorem stepAddRegReg : Obligations.StepAddRegReg := by
  unfold Obligations.StepAddRegReg
  rintro s _ rfl h hb
  obtain ⟨hfirst, hsecond, hrun⟩ :=
    step_operand_paths (o := .addRegReg) rfl h hb (b := s.ip + 2) (BitVec.add_assoc _ _ _)
  refine ⟨hfirst, hsecond, fun hin hin' =>
    ⟨_, (hrun hin hin').trans (exec_addRegReg_eq_writeOperand _ _ _), ?_⟩⟩
  obtain ⟨hacc, hframe⟩ := writeAcc_atIp_frame _ s _
  refine ⟨?_, hframe⟩
  rw [hacc, BitVec.toNat_add, State.reg_atIp, State.reg_atIp]
  rfl

end Sys2Proof.Machine
end

section
/-! SUPPORT. The obligations about the jump (`43_jmp.md`), with the lemmas they rest on: the jump as a move of
`ip`, and the value of `ip` that each row leaves. -/

namespace Sys2Proof.Machine

/-! ### The effect (R95, R98) -/

/-- A jump moves `ip` to its target where the value differs from `acc`, and leaves it where they are equal. -/
theorem exec_jmpNotEql (val tgt : Word) (s : State) :
    exec (.jmpNotEql val tgt) s = .next (s.atIp (if val = s.reg .acc then s.ip else tgt)) := by
  have hdef : exec (.jmpNotEql val tgt) s =
      .next (if differs val (s.reg .acc) then s.atIp tgt else s) := rfl
  rw [hdef, differs]
  by_cases heq : val = s.reg .acc
  · rw [if_pos heq, if_neg (by simpa using heq), State.atIp_self]
  · rw [if_neg heq, if_pos (by simpa using heq)]

/-- Settles O26: words that differ in a bit differ, and the jump is a move of `ip`. -/
theorem jumpCompletes : Obligations.JumpCompletes := by
  unfold Obligations.JumpCompletes
  intro s val tgt
  obtain ⟨hip, hframe⟩ := s.atIp_frame (if val = s.reg .acc then s.ip else tgt)
  refine ⟨_, exec_jmpNotEql val tgt s, ?_, fun heq => hip.trans (if_pos heq), hframe⟩
  rintro ⟨k, hk⟩
  have hne : val ≠ s.reg .acc := fun heq => hk (by rw [heq])
  exact hip.trans (if_neg hne)

/-- Settles O34: the jump puts the target in `ip`, and the next step's opcode fetch is outside memory. -/
theorem targetOutsideMemoryFaultsAtTheNextStep : Obligations.TargetOutsideMemoryFaultsAtTheNextStep := by
  unfold Obligations.TargetOutsideMemoryFaultsAtTheNextStep
  intro s val tgt hne hout
  have hexec : exec (.jmpNotEql val tgt) s = .next (s.atIp tgt) := by rw [exec_jmpNotEql, if_neg hne]
  have hfetch : (s.atIp tgt).size < (s.atIp tgt).ip.toNat + 1 := by
    rw [State.size_atIp, State.ip_atIp]
    exact Nat.lt_succ_of_le hout
  refine ⟨_, hexec, s.ip_atIp tgt, ?_⟩
  rw [step_opcode_outside hfetch, State.ip_atIp]

/-! ### The step, on every path (R95, R126) -/

/-- A jump after `ip` has moved compares with the `acc` of the state before. -/
theorem exec_jmpNotEql_atIp (val tgt : Word) (s : State) (a : Word) :
    exec (.jmpNotEql val tgt) (s.atIp a) = .next (s.atIp (if val = s.reg .acc then a else tgt)) := by
  rw [exec_jmpNotEql, State.atIp_atIp, State.ip_atIp, s.reg_atIp_other a (by decide)]

/-- Settles O21: the paths of format `WW`, then the jump, which moves `ip` from past the instruction. -/
theorem stepJmpNotEql : Obligations.StepJmpNotEql := by
  unfold Obligations.StepJmpNotEql
  rintro s _ rfl h hb
  obtain ⟨hfirst, hsecond, hrun⟩ :=
    step_operand_paths (o := .jmpNotEql) rfl h hb (b := s.ip + 3) (BitVec.add_assoc _ _ _)
  refine ⟨hfirst, hsecond, fun hin hin' => ⟨_, (hrun hin hin').trans (exec_jmpNotEql_atIp _ _ s _), ?_⟩⟩
  obtain ⟨hip, hframe⟩ := s.atIp_frame
    (if s.wordAt (s.ip + 1) = s.reg .acc then s.ip + 5 else s.wordAt (s.ip + 3))
  exact ⟨fun hne => hip.trans (if_neg hne), fun heq => hip.trans (if_pos heq), hframe⟩

/-! ### The value of `ip` after each row (R97) -/

/-- A byte selects `ip` exactly when it is a multiple of 10 (R56). -/
theorem regOf_eq_ip_iff (b : Byte) : regOf b = .ip ↔ b.toNat % 10 = 0 := by
  constructor
  · intro h
    rw [← number_regOf, h, RegName.number]
  · exact fun h => regOf_congr (b' := 0) h

/-- A register destination moves `ip` where its byte selects `ip`, and nowhere else. -/
theorem ip_writeOperand (b : Byte) (w : Word) (s : State) :
    (writeOperand b w s).ip = if b.toNat % 10 = 0 then w else s.ip := by
  simp only [State.ip, writeOperand, State.reg_setReg_toNat, eq_comm (a := RegName.ip), regOf_eq_ip_iff]

/-- A load that completes writes the word at its address to its register destination. -/
theorem exec_movMemReg_next {s t : State} {addr : Word} {tb : Byte}
    (h : exec (.movMemReg addr tb) s = .next t) : t = writeOperand tb (s.wordAt addr) s := by
  rcases Nat.lt_or_ge s.size (addr.toNat + 2) with hout | hin
  · rw [exec_movMemReg_outside tb hout] at h
    cases h
  · rw [exec_movMemReg_inside_wordAt tb hin] at h
    cases h
    rfl

/-- A move between registers leaves `ip` past its bytes unless it moves another register into `ip`: a source
`ip` is read past the bytes too. -/
theorem ip_writeOperand_readOperand_atIp (fb tb : Byte) (s : State) (a : Word) :
    (writeOperand tb (readOperand fb (s.atIp a)) (s.atIp a)).ip =
      if tb.toNat % 10 = 0 ∧ fb.toNat % 10 ≠ 0 then s.reg (regOf fb) else a := by
  rw [ip_writeOperand, State.ip_atIp, readOperand, State.reg_atIp]
  simp only [regOf_eq_ip_iff]
  by_cases htb : tb.toNat % 10 = 0
  · by_cases hfb : fb.toNat % 10 = 0
    · rw [if_pos htb, if_pos hfb, if_neg fun hmove => hmove.2 hfb]
    · rw [if_pos htb, if_neg hfb, if_pos ⟨htb, hfb⟩]
  · rw [if_neg htb, if_neg fun hmove => htb hmove.1]

/-- Settles O33: `ip` after the effect of the row at `ip`, run from past its bytes. -/
theorem everyWriteOfIp : Obligations.EveryWriteOfIp := by
  unfold Obligations.EveryWriteOfIp
  intro s t h
  refine ⟨fun hb => ?movLitReg, fun hb => ?movRegReg, fun hb => ?movRegMem, fun hb => ?movMemReg,
    fun hb => ?addRegReg, fun hb => ?jmpNotEql⟩
  case movLitReg =>
    cases exec_instrAtIp_of_step (o := .movLitReg) h hb
    exact (ip_writeOperand _ _ _).trans (by rw [State.ip_atIp]; rfl)
  case movRegReg =>
    cases exec_instrAtIp_of_step (o := .movRegReg) h hb
    exact ip_writeOperand_readOperand_atIp _ _ s _
  case movRegMem =>
    obtain ⟨-, rfl⟩ := exec_movRegMem_next (exec_instrAtIp_of_step (o := .movRegMem) h hb)
    exact s.ip_atIp _
  case movMemReg =>
    rw [exec_movMemReg_next (exec_instrAtIp_of_step (o := .movMemReg) h hb), ip_writeOperand, State.ip_atIp]
    rfl
  case addRegReg =>
    have hexec := exec_instrAtIp_of_step (o := .addRegReg) h hb
    cases (exec_addRegReg_eq_writeOperand _ _ _).symm.trans hexec
    obtain ⟨-, hip, -⟩ := writeAcc_atIp_frame _ s _
    exact hip
  case jmpNotEql =>
    have hexec := exec_instrAtIp_of_step (o := .jmpNotEql) h hb
    cases (exec_jmpNotEql_atIp _ _ s _).symm.trans hexec
    exact s.ip_atIp _

end Sys2Proof.Machine
end

section
/-! SUPPORT. The obligations about the host interface (`44_host_interface.md`), with the lemmas they rest on: the
register table by name, the provider's access to memory, the bytes of a loaded image, and one equation per kind of
request for the state it leaves. -/

namespace Sys2Proof.Machine

/-! ### The register port (R102 to R105) -/

@[simp] theorem RegName.ofName_name (n : RegName) : RegName.ofName n.name = some n := by
  cases n <;> rfl

/-- A name outside the table selects no register. -/
theorem RegName.ofName_eq_none {name : String} (h : name ∉ RegName.table.map RegName.name) :
    RegName.ofName name = none :=
  List.find?_eq_none.mpr fun _ hn heq => h (List.mem_map.mpr ⟨_, hn, beq_iff_eq.mp heq⟩)

theorem getRegister_name (n : RegName) (s : State) : getRegister n.name s = .ok (s.reg n) := by
  rw [getRegister, RegName.ofName_name]

theorem getRegister_unknown {name : String} (h : RegName.ofName name = none) (s : State) :
    getRegister name s = .error (.unknownRegister name s) := by
  rw [getRegister, h]
  rfl

theorem setRegister_name (n : RegName) (value : Nat) (s : State) :
    setRegister n.name value s = .ok (BitVec.ofNat 16 value, s.setReg n value) := by
  rw [setRegister, RegName.ofName_name, ← s.reg_setReg_same n value]

theorem setRegister_unknown {name : String} (h : RegName.ofName name = none) (value : Nat) (s : State) :
    setRegister name value s = .error (.unknownRegister name s) := by
  rw [setRegister, h]
  rfl

/-- Settles O47: the table's own names are looked up, every other name is not found. -/
theorem getRegisterLooksUpTheName : Obligations.GetRegisterLooksUpTheName := by
  unfold Obligations.GetRegisterLooksUpTheName
  refine ⟨fun s => ?_, fun s name h => getRegister_unknown (RegName.ofName_eq_none h) s⟩
  exact ⟨getRegister_name .ip s, getRegister_name .acc s, getRegister_name .r1 s, getRegister_name .r2 s,
    getRegister_name .r3 s, getRegister_name .r4 s, getRegister_name .r5 s, getRegister_name .r6 s,
    getRegister_name .r7 s, getRegister_name .r8 s⟩

/-- Settles O48: the write of a named register is the register write of R13. -/
theorem setRegisterStoresModulo65536 : Obligations.SetRegisterStoresModulo65536 := by
  unfold Obligations.SetRegisterStoresModulo65536
  refine ⟨fun s n value => ?_, fun s name value h => setRegister_unknown (RegName.ofName_eq_none h) value s⟩
  refine ⟨_, _, setRegister_name n value s, BitVec.toNat_ofNat value 16, ?_, s.regsKeptBut_setReg n value,
    State.memoryKept_of_mem_eq rfl⟩
  rw [getRegister_name, State.reg_setReg_same]

/-! ### The port's faults (R104) -/

theorem serve_getRegister_unknown {name : String} (h : RegName.ofName name = none) (s : State) :
    serve (.getRegister name) s = .fault (.unknownRegister name s) := by
  rw [serve, getRegister_unknown h]

theorem serve_setRegister_unknown {name : String} (h : RegName.ofName name = none) (value : Nat) (s : State) :
    serve (.setRegister name value) s = .fault (.unknownRegister name s) := by
  rw [serve, setRegister_unknown h]

theorem stateAfterRequest_of_fault {q : HostRequest} {s : State} {f : Fault} (h : serve q s = .fault f) :
    stateAfterRequest q s = f.left := by
  rw [stateAfterRequest, h]

theorem step_ne_unknownRegister (s t : State) (name : String) : step s ≠ .fault (.unknownRegister name t) := by
  intro h
  rcases step_cases s with ⟨-, hs⟩ | ⟨-, -, hs⟩ | ⟨_, _, _, -, -, -, -, hs⟩ | ⟨i, -, -, -, hs⟩
  · cases hs.symm.trans h
  · cases hs.symm.trans h
  · cases hs.symm.trans h
  · exact exec_ne_unknownRegister i _ t name (hs.symm.trans h)

/-- Settles O49: the port faults on a name that is not found, and a step only for its opcode or its bounds. -/
theorem onlyTheHostPortRaisesUnknownRegister : Obligations.OnlyTheHostPortRaisesUnknownRegister := by
  unfold Obligations.OnlyTheHostPortRaisesUnknownRegister
  refine ⟨fun s name value h => ?_, step_ne_unknownRegister⟩
  have hget := serve_getRegister_unknown (RegName.ofName_eq_none h) s
  have hset := serve_setRegister_unknown (RegName.ofName_eq_none h) value s
  exact ⟨hget, hset, stateAfterRequest_of_fault hget, stateAfterRequest_of_fault hset⟩

/-! ### The bytes of a loaded image (R101, `70_reset_and_hazards.md` R143) -/

/-- Loading leaves every byte below its base as it was. -/
theorem Memory.byte_load_below (bytes : List Byte) (m : Memory) {base a : Nat} (h : a < base) :
    (m.load base bytes).byte a = m.byte a := by
  induction bytes generalizing m base with
  | nil => rfl
  | cons b rest ih =>
    rw [Memory.load, ih _ (Nat.lt_succ_of_lt h)]
    split
    · exact Memory.byte_setByte_other _ _ (Nat.ne_of_lt h)
    · rfl

/-- A loaded byte that falls inside memory is read back at its address. -/
theorem Memory.byte_load_inside {bytes : List Byte} {m : Memory} {base k : Nat} {b : Byte}
    (hin : base + k < m.size.val) (hb : bytes[k]? = some b) : (m.load base bytes).byte (base + k) = b := by
  induction bytes generalizing m base k with
  | nil => cases hb
  | cons c rest ih =>
    cases k with
    | zero =>
      cases hb
      have hfirst : m.inBounds base .w8 := hin
      rw [Memory.load, if_pos hfirst, Nat.add_zero base, Memory.byte_load_below _ _ (Nat.lt_add_one base),
        Memory.byte_setByte_same]
    | succ k =>
      have hbase : base + (k + 1) = base + 1 + k := by omega
      rw [hbase] at hin ⊢
      refine ih ?_ hb
      split <;> exact hin

theorem serve_construct_ok {size : Nat} (h : 1 ≤ size ∧ size ≤ Config.maxMemSize) (image : List Byte)
    (s : State) :
    serve (.construct size image) s =
      .next ⟨State.construct (Memory.ofImage ⟨size, h.1, h.2⟩ image), none⟩ := dif_pos h

theorem serve_construct_refused {size : Nat} (h : ¬(1 ≤ size ∧ size ≤ Config.maxMemSize)) (image : List Byte)
    (s : State) : serve (.construct size image) s = .refused (.memorySize size) := dif_neg h

@[simp] theorem Memory.size_ofImage (size : MemSize) (image : List Byte) :
    (Memory.ofImage size image).size = size := Memory.size_load image _ 0

theorem Memory.byte_ofImage {size : MemSize} {image : List Byte} {a : Nat} {b : Byte} (ha : a < size.val)
    (hb : image[a]? = some b) : (Memory.ofImage size image).byte a = b := by
  rw [← Nat.zero_add a] at ha ⊢
  exact Memory.byte_load_inside ha hb

/-- Settles O51: the loader's memory, and the two sides of the range of sizes. -/
theorem constructionKeepsTheImage : Obligations.ConstructionKeepsTheImage := by
  unfold Obligations.ConstructionKeepsTheImage
  refine fun size image s => ⟨fun hlo hhi => ?_, fun hout => ?_⟩
  · exact ⟨_, serve_construct_ok ⟨hlo, hhi⟩ image s, congrArg MemSize.val (Memory.size_ofImage _ image),
      State.reg_construct _, fun _ _ ha hb => Memory.byte_ofImage ha hb⟩
  · refine serve_construct_refused (fun ⟨hlo, hhi⟩ => ?_) image s
    have hmax : size ≤ 65536 := hhi
    omega

/-! ### The provider's access to memory (R107) -/

theorem serve_memoryGet8_inside {s : State} {a : Nat} (h : a + 1 ≤ s.size) :
    serve (.memoryGet a .w8) s = .next ⟨s, some (s.mem.byte a).toNat⟩ := by
  have hget : s.mem.hostGet a .w8 = some (s.mem.byte a).toNat := if_pos h
  rw [serve, hget]

theorem serve_memoryGet16_inside {s : State} {a : Nat} (h : a + 2 ≤ s.size) :
    serve (.memoryGet a .w16) s = .next ⟨s, some (s.mem.word a).toNat⟩ := by
  have hget : s.mem.hostGet a .w16 = some (s.mem.word a).toNat := if_pos h
  rw [serve, hget]

theorem serve_memoryGet_outside {s : State} {a : Nat} {w : Width} (h : s.size < a + w.bytes) :
    serve (.memoryGet a w) s = .refused (.providerAccess a w .read) := by
  have hget : s.mem.hostGet a w = none := if_neg (Nat.not_le.mpr h)
  rw [serve, hget]

theorem serve_memorySet8_inside {s : State} {a : Nat} (v : Nat) (h : a + 1 ≤ s.size) :
    serve (.memorySet a .w8 v) s =
      .next ⟨{ s with mem := s.mem.setByte a (BitVec.ofNat 8 v) }, none⟩ := by
  have hset : s.mem.hostSet a .w8 v = some (s.mem.setByte a (BitVec.ofNat 8 v)) := if_pos h
  rw [serve, hset]

theorem serve_memorySet16_inside {s : State} {a : Nat} (v : Nat) (h : a + 2 ≤ s.size) :
    serve (.memorySet a .w16 v) s =
      .next ⟨{ s with mem := s.mem.setWord a (BitVec.ofNat 16 v) }, none⟩ := by
  have hset : s.mem.hostSet a .w16 v = some (s.mem.setWord a (BitVec.ofNat 16 v)) := if_pos h
  rw [serve, hset]

theorem serve_memorySet_outside {s : State} {a : Nat} {w : Width} (v : Nat) (h : s.size < a + w.bytes) :
    serve (.memorySet a w v) s = .refused (.providerAccess a w .write) := by
  have hset : s.mem.hostSet a w v = none := if_neg (Nat.not_le.mpr h)
  rw [serve, hset]

/-- A byte of memory that holds a stored value is seen by the host's read and by a fetch. -/
theorem storedByte_isSeen {t : State} {a : Word} {v : Nat} (hin : a.toNat + 1 ≤ t.size)
    (hv : t.byteAt a = BitVec.ofNat 8 v) :
    serve (.memoryGet a.toNat .w8) t = .next ⟨t, some (v % 256)⟩ ∧
      ∃ u, fetch8 (t.atIp a) = .ok (BitVec.ofNat 8 v, u) := by
  refine ⟨?_, _, hv ▸ fetch8_atIp_inside hin⟩
  rw [serve_memoryGet8_inside hin, ← State.byteAt, hv, BitVec.toNat_ofNat]

/-- A word of memory that holds a stored value is seen by the host's read and by a fetch. -/
theorem storedWord_isSeen {t : State} {a : Word} {v : Nat} (hin : a.toNat + 2 ≤ t.size)
    (hv : t.wordAt a = BitVec.ofNat 16 v) :
    serve (.memoryGet a.toNat .w16) t = .next ⟨t, some (v % 65536)⟩ ∧
      ∃ u, fetch16 (t.atIp a) = .ok (BitVec.ofNat 16 v, u) := by
  refine ⟨?_, _, hv ▸ fetch16_atIp_inside hin⟩
  rw [serve_memoryGet16_inside hin, State.word_eq hin, ← State.wordAt_eq_beWord, hv, BitVec.toNat_ofNat]

/-- Settles O55: each width inside memory, and both accesses outside it. -/
theorem hostMemoryAccessIsSeen : Obligations.HostMemoryAccessIsSeen := by
  unfold Obligations.HostMemoryAccessIsSeen
  refine fun s a v => ⟨fun h => ?_, fun h => ?_,
    fun w h => ⟨serve_memorySet_outside v h, serve_memoryGet_outside h⟩⟩
  · obtain ⟨hget, hfetch⟩ := storedByte_isSeen (t := { s with mem := s.mem.setByte a.toNat (BitVec.ofNat 8 v) }) h
      (Memory.byte_setByte_same _ _ _)
    exact ⟨_, serve_memorySet8_inside v h, rfl, hget, hfetch, fun b hb => Memory.byte_setByte_other _ _ hb⟩
  · obtain ⟨hget, hfetch⟩ := storedWord_isSeen
      (t := { s with mem := s.mem.setWord a.toNat (BitVec.ofNat 16 v) }) h (State.wordAt_of_setWord h rfl)
    exact ⟨_, serve_memorySet16_inside v h, rfl, hget, hfetch, State.memoryKeptBut16_of_setWord rfl⟩

/-! ### The state after a request (R100, R111) -/

theorem stateAfterRequest_step (s : State) : stateAfterRequest .step s = stateAfterStep s := by
  rw [stateAfterRequest, serve, stateAfterStep]
  cases step s <;> rfl

theorem stateAfterRequest_getRegister (name : String) (s : State) :
    stateAfterRequest (.getRegister name) s = s := by
  rw [stateAfterRequest, serve, getRegister]
  cases RegName.ofName name <;> rfl

theorem mem_stateAfterRequest_setRegister (name : String) (value : Nat) (s : State) :
    (stateAfterRequest (.setRegister name value) s).mem = s.mem := by
  rw [stateAfterRequest, serve, setRegister]
  cases RegName.ofName name <;> rfl

theorem stateAfterRequest_memoryGet (a : Nat) (w : Width) (s : State) :
    stateAfterRequest (.memoryGet a w) s = s := by
  rw [stateAfterRequest, serve]
  cases s.mem.hostGet a w <;> rfl

theorem mem_stateAfterRequest_memorySet (a : Nat) (w : Width) (v : Nat) (s : State) :
    (stateAfterRequest (.memorySet a w v) s).mem = (s.mem.hostSet a w v).getD s.mem := by
  rw [stateAfterRequest, serve]
  cases s.mem.hostSet a w v <;> rfl

/-! ### The invariant over requests (R100, R111, log entry 2) -/

theorem stateAfterStep_inv {s : State} (h : s.inv) : (stateAfterStep s).inv := by
  obtain ⟨hnext, hfault⟩ := stepKeepsTheInvariant s h
  rw [stateAfterStep]
  split
  · exact hnext _ ‹_›
  · exact hfault _ ‹_›
  · exact h

theorem Memory.wf_ofImage (size : MemSize) (image : List Byte) : (Memory.ofImage size image).wf :=
  Memory.wf_load image 0 (Memory.wf_blank size)

theorem stateAfterRequest_construct_inv (size : Nat) (image : List Byte) {s : State} (h : s.inv) :
    (stateAfterRequest (.construct size image) s).inv := by
  rw [stateAfterRequest]
  by_cases hsize : 1 ≤ size ∧ size ≤ Config.maxMemSize
  · rw [serve_construct_ok hsize]
    exact Memory.wf_ofImage _ image
  · rw [serve_construct_refused hsize]
    exact h

/-- Every kind of request keeps the invariant, whether it completes, faults or is refused. -/
theorem stateAfterRequest_inv (q : HostRequest) {s : State} (h : s.inv) : (stateAfterRequest q s).inv := by
  cases q with
  | construct size image => exact stateAfterRequest_construct_inv size image h
  | reset => exact h
  | step => exact stateAfterRequest_step s ▸ stateAfterStep_inv h
  | getRegister name => exact (stateAfterRequest_getRegister name s).symm ▸ h
  | setRegister name value => rwa [State.inv, mem_stateAfterRequest_setRegister]
  | memoryGet addr width => exact (stateAfterRequest_memoryGet addr width s).symm ▸ h
  | memorySet addr width value =>
    rw [State.inv, mem_stateAfterRequest_memorySet]
    cases hset : s.mem.hostSet addr width value with
    | none => exact h
    | some m => exact Memory.wf_hostSet h hset

/-- Settles O41, by induction on the requests. -/
theorem hostRequestsKeepTheInvariant : Obligations.HostRequestsKeepTheInvariant := by
  unfold Obligations.HostRequestsKeepTheInvariant
  intro requests
  induction requests with
  | nil => exact fun s h => h
  | cons q rest ih => exact fun s h => ih _ (stateAfterRequest_inv q h)

end Sys2Proof.Machine
end

section
/-! SUPPORT. The obligations about faults (`60_exceptions.md`), with the lemmas they rest on: everything a step
that faults can be, and the one transaction of a step that can fail, its last. -/

namespace Sys2Proof.Machine

/-! ### Everything a fault of a step can be (R123, R125, R126) -/

/-- A step faults on an invalid opcode past its byte, on a fetch outside memory with `ip` at it, or on the data
access of the store or the load at `ip` with `ip` past its four bytes; nothing but `ip` has moved. -/
theorem step_fault_cases {s : State} {f : Fault} (h : step s = .fault f) :
    f = .unknownInstruction (s.byteAt s.ip) (s.atIp (s.ip + 1)) ∨
    (∃ a w, s.size < a.toNat + w.bytes ∧ f = .boundsViolation a w .read (s.atIp a)) ∨
    (s.byteAt s.ip = Opcode.movRegMem.byte ∧ s.size < (s.wordAt (s.ip + 2)).toNat + 2 ∧
      f = .boundsViolation (s.wordAt (s.ip + 2)) .w16 .write (s.atIp (s.ip + 4))) ∨
    (s.byteAt s.ip = Opcode.movMemReg.byte ∧ s.size < (s.wordAt (s.ip + 1)).toNat + 2 ∧
      f = .boundsViolation (s.wordAt (s.ip + 1)) .w16 .read (s.atIp (s.ip + 4))) := by
  rcases step_cases s with ⟨hout, hs⟩ | ⟨-, -, hs⟩ | ⟨o, a, w, -, -, hout, -, hs⟩ | ⟨i, hf, ho, hops, hs⟩
  · cases hs.symm.trans h
    exact .inr (.inl ⟨s.ip, .w8, hout, by rw [State.atIp_self]⟩)
  · cases hs.symm.trans h
    exact .inl rfl
  · cases hs.symm.trans h
    exact .inr (.inl ⟨a, w, hout, rfl⟩)
  · have hi : s.instrAtIp i.opcode = i := by
      rw [fetchOperands_instrAtIp hf, Except.ok.injEq] at hops
      exact congrArg Prod.fst hops
    have hb := Opcode.ofByte_eq_some ho
    rcases exec_fault (hs.symm.trans h) with ⟨fb, addr, rfl, hout, rfl⟩ | ⟨addr, tb, rfl, hout, rfl⟩
    · cases hi
      exact .inr (.inr (.inl ⟨hb, hout, rfl⟩))
    · cases hi
      exact .inr (.inr (.inr ⟨hb, hout, rfl⟩))

/-- Settles O30: wherever the fault was raised, only `ip` had moved. -/
theorem faultChangesOnlyIp : Obligations.FaultChangesOnlyIp := by
  unfold Obligations.FaultChangesOnlyIp
  intro s f h
  obtain ⟨a, ha⟩ := step_fault_left h
  rw [ha, State.ip_atIp]

/-- Settles O31: a fetch faults at the `ip` it leaves, a store and a load at the address of their row. -/
theorem boundsFaultNamesItsAccess : Obligations.BoundsFaultNamesItsAccess := by
  unfold Obligations.BoundsFaultNamesItsAccess
  intro s t a w k h
  rcases step_fault_cases h with hf | ⟨_, _, hout, hf⟩ | ⟨hb, hout, hf⟩ | ⟨hb, hout, hf⟩
  · cases hf
  · cases hf
    exact ⟨hout, .inl ⟨rfl, s.ip_atIp _⟩⟩
  · cases hf
    exact ⟨hout, .inr (.inr ⟨rfl, rfl, hb, s.ip_atIp _, rfl⟩)⟩
  · cases hf
    exact ⟨hout, .inr (.inl ⟨rfl, rfl, hb, s.ip_atIp _, rfl⟩)⟩

/-! ### Going on after a fault (R127) -/

theorem stateAfterStep_of_fault {s : State} {f : Fault} (h : step s = .fault f) : stateAfterStep s = f.left := by
  rw [stateAfterStep, h]

/-- A state that a step leaves as it was is left as it was by any number of steps. -/
theorem stateAfterSteps_of_fixed {s : State} (h : stateAfterStep s = s) (k : Nat) : stateAfterSteps k s = s := by
  induction k with
  | zero => rfl
  | succ k ih => rw [stateAfterSteps, h, ih]

/-- Settles O35: the fault leaves the state it was raised in, so every further step is the same step. -/
theorem stepsOutsideMemoryRepeatTheFault : Obligations.StepsOutsideMemoryRepeatTheFault := by
  unfold Obligations.StepsOutsideMemoryRepeatTheFault
  intro s k hout
  have hstep := step_opcode_outside (Nat.lt_succ_of_le hout)
  have hfixed : stateAfterSteps k s = s := stateAfterSteps_of_fixed (stateAfterStep_of_fault hstep :) k
  exact ⟨hfixed, by rw [hfixed, hstep]⟩

/-- Settles O36: the fault leaves `ip` at the next byte, which the next step fetches as its opcode. -/
theorem stepAfterInvalidOpcodeReadsTheNextByte : Obligations.StepAfterInvalidOpcodeReadsTheNextByte := by
  unfold Obligations.StepAfterInvalidOpcodeReadsTheNextByte
  intro s t op h
  rcases step_fault_cases h with hf | ⟨_, _, -, hf⟩ | ⟨-, -, hf⟩ | ⟨-, -, hf⟩
  · cases hf
    refine ⟨rfl, stateAfterStep_of_fault h, fun hin => ?_⟩
    rw [step_atIp_inside hin, BitVec.add_assoc]
    rfl
  · cases hf
  · cases hf
  · cases hf

/-! ### The transaction that fails (R128, `20_memory.md` R38) -/

theorem operandAccesses_cons_inside {s : State} {a : Word} {w : Width} (h : a.toNat + w.bytes ≤ s.size)
    (ws : List Width) : operandAccesses s.mem a (w :: ws) =
      Access.ofRead s.mem a w :: operandAccesses s.mem (a + BitVec.ofNat 16 w.bytes) ws := by
  rw [operandAccesses_cons, if_pos h]

theorem operandAccesses_cons_outside {s : State} {a : Word} {w : Width} (h : s.size < a.toNat + w.bytes)
    (ws : List Width) : operandAccesses s.mem a (w :: ws) = [Access.ofRead s.mem a w] := by
  rw [operandAccesses_cons, if_neg (Nat.not_le.mpr h)]

/-- The transactions of a step are some that moved their bytes and then one that the step's fault names. -/
def State.failsAt (s : State) (before : List Access) (x : Access) : Prop :=
  stepAccesses s = before ++ [x] ∧ (∀ y ∈ before, y.done = true) ∧
    ∃ t, step s = .fault (.boundsViolation x.addr x.width x.kind t)

/-- A step whose transactions are done up to a fetch that its fault names fails at that fetch. -/
theorem State.failsAt_ofRead {s t : State} {before : List Access} {a : Word} {w : Width}
    (hacc : stepAccesses s = before ++ [Access.ofRead s.mem a w]) (hdone : ∀ y ∈ before, y.done = true)
    (hstep : step s = .fault (.boundsViolation a w .read t)) : s.failsAt before (Access.ofRead s.mem a w) := by
  refine ⟨hacc, hdone, t, ?_⟩
  rw [Access.ofRead_addr, Access.ofRead_width, Access.ofRead_kind]
  exact hstep

theorem failsAt_opcode {s : State} (h : s.size < s.ip.toNat + 1) :
    s.failsAt [] (Access.ofRead s.mem s.ip .w8) := by
  refine State.failsAt_ofRead ?_ (by simp) (step_opcode_outside h)
  simp only [stepAccesses, fetch8_outside h, List.nil_append]

/-- Fetches that end in one outside memory, after others that are done, are where the step fails. -/
theorem failsAt_fetch {s t : State} {o : Opcode} (hb : s.byteAt s.ip = o.byte) {before : List Access} {a : Word}
    {w : Width} (hops : operandAccesses s.mem s.ip (.w8 :: o.format.widths) = before ++ [Access.ofRead s.mem a w])
    (hdone : ∀ y ∈ before, y.done = true) (hout : s.size < a.toNat + w.bytes)
    (hstep : step s = .fault (.boundsViolation a w .read t)) : s.failsAt before (Access.ofRead s.mem a w) := by
  refine State.failsAt_ofRead ?_ hdone hstep
  have hf : ¬ s.fetchable o = true := fun hf => by
    have hlast := (forall_done_operandAccesses s s.ip _).mpr hf (Access.ofRead s.mem a w) (by rw [hops]; simp)
    exact absurd ((Access.done_ofRead s a w).mp hlast) (Nat.not_le.mpr hout)
  rw [stepAccesses_eq hb, if_neg hf, List.append_nil, hops]

/-- An effect has its data access, if it has one, done, or faults and names it. -/
theorem dataAccesses_done_or_fault (i : Instr) (s : State) :
    (∀ x ∈ dataAccesses i s, x.done = true) ∨
    ∃ x, dataAccesses i s = [x] ∧ exec i s = .fault (.boundsViolation x.addr x.width x.kind s) := by
  cases h : exec i s with
  | next t => exact .inl ((exec_completes_iff i s).mp ⟨t, h⟩)
  | fault f =>
    rcases exec_fault h with ⟨fb, addr, rfl, -, rfl⟩ | ⟨addr, tb, rfl, -, rfl⟩
    · exact .inr ⟨_, rfl, rfl⟩
    · exact .inr ⟨_, rfl, rfl⟩
  | refused r => exact absurd h (exec_not_refused i s r)

/-- A step whose fetches are done has all its transactions done or fails at the data access, after the fetches. -/
theorem done_or_failsAt_data {s : State} {o : Opcode} (hf : s.fetchable o = true) (hb : s.byteAt s.ip = o.byte) :
    (∀ x ∈ stepAccesses s, x.done = true) ∨ ∃ before x, s.failsAt before x := by
  have hacc := stepAccesses_of_fetchable hf hb
  have hops := (forall_done_operandAccesses s s.ip (.w8 :: o.format.widths)).mpr hf
  rcases dataAccesses_done_or_fault (s.instrAtIp o) (s.atIp (s.ip + BitVec.ofNat 16 o.length)) with
    hdata | ⟨x, hdata, hfault⟩
  · exact .inl (by rw [hacc]; exact List.forall_mem_append.mpr ⟨hops, hdata⟩)
  · exact .inr ⟨_, x, by rw [hacc, hdata], hops, _, (step_of_fetchable hf hb).trans hfault⟩

theorem exists_widths_eq_pair (o : Opcode) : ∃ w x, o.format.widths = [w, x] := by
  cases o <;> exact ⟨_, _, rfl⟩

/-- A step on an opcode's byte has all its transactions done, or fails at its first operand, its second operand
or its data access. -/
theorem done_or_failsAt_of_opcode {s : State} {o : Opcode} (h : s.ip.toNat + 1 ≤ s.size)
    (hb : s.byteAt s.ip = o.byte) :
    (∀ x ∈ stepAccesses s, x.done = true) ∨ ∃ before x, s.failsAt before x := by
  obtain ⟨w, x, hw⟩ := exists_widths_eq_pair o
  obtain ⟨hfirst, hsecond, -⟩ := step_operand_paths hw h hb rfl
  have hopDone : ∀ y ∈ [Access.ofRead s.mem s.ip .w8], y.done = true :=
    List.forall_mem_singleton.mpr ((Access.done_ofRead s s.ip .w8).mpr h)
  have hops : operandAccesses s.mem s.ip (.w8 :: o.format.widths) =
      Access.ofRead s.mem s.ip .w8 :: operandAccesses s.mem (s.ip + 1) [w, x] := by
    rw [hw]
    exact operandAccesses_cons_inside h _
  rcases Nat.lt_or_ge s.size ((s.ip + 1).toNat + w.bytes) with hout | hin
  · rw [operandAccesses_cons_outside hout] at hops
    exact .inr ⟨_, _, failsAt_fetch (before := [_]) hb hops hopDone hout (hfirst hout)⟩
  rw [operandAccesses_cons_inside hin] at hops
  rcases Nat.lt_or_ge s.size ((s.ip + 1 + BitVec.ofNat 16 w.bytes).toNat + x.bytes) with hout | hin'
  · rw [operandAccesses_cons_outside hout] at hops
    have hdone := List.forall_mem_append.mpr
      ⟨hopDone, List.forall_mem_singleton.mpr ((Access.done_ofRead s (s.ip + 1) w).mpr hin)⟩
    exact .inr ⟨_, _, failsAt_fetch (before := [_, _]) hb hops hdone hout (hsecond hin hout)⟩
  · exact done_or_failsAt_data (State.fetchable_of_pair hw h hin hin') hb

/-- All transactions of a step are done, or the step fails at the last of them. -/
theorem done_or_failsAt (s : State) :
    (∀ x ∈ stepAccesses s, x.done = true) ∨ ∃ before x, s.failsAt before x := by
  rcases Nat.lt_or_ge s.size (s.ip.toNat + 1) with hout | hin
  · exact .inr ⟨_, _, failsAt_opcode hout⟩
  cases ho : Opcode.ofByte (s.byteAt s.ip) with
  | none => exact .inl (by simp [stepAccesses_unknown hin ho, Access.done])
  | some o => exact done_or_failsAt_of_opcode hin (Opcode.ofByte_eq_some ho)

/-- In a list that ends after elements without `x`, `x` can only stand last. -/
theorem eq_last_of_not_mem {α : Type} {l before after : List α} {x y : α}
    (h : l ++ [y] = before ++ x :: after) (hx : x ∉ l) : after = [] ∧ x = y := by
  rcases List.eq_nil_or_concat after with rfl | ⟨init, z, rfl⟩
  · exact ⟨rfl, by simpa using (List.append_inj_right' h rfl).symm⟩
  · rw [List.concat_eq_append, ← List.cons_append, ← List.append_assoc] at h
    rw [List.append_inj_left' h rfl] at hx
    exact absurd (by simp) hx

/-- Settles O45: the transactions before the one the fault names are done, so the one that is not is the last. -/
theorem firstFailedTransactionEndsTheStep : Obligations.FirstFailedTransactionEndsTheStep := by
  unfold Obligations.FirstFailedTransactionEndsTheStep
  intro s before after x hacc hx
  rcases done_or_failsAt s with hall | ⟨init, y, hinit, hdone, hstep⟩
  · have hxdone := hall x (by rw [hacc]; simp)
    exact absurd hxdone (Bool.eq_false_iff.mp hx)
  · obtain ⟨rfl, rfl⟩ := eq_last_of_not_mem (hinit.symm.trans hacc) fun hmem =>
      Bool.eq_false_iff.mp hx (hdone x hmem)
    exact ⟨rfl, hstep⟩

end Sys2Proof.Machine
end

section
/-! SUPPORT. The obligations about reset and hazards (`70_reset_and_hazards.md`), with the lemmas they rest on:
what states with the same contents agree on, and which operations keep them so. -/

namespace Sys2Proof.Machine

/-! ### What states with the same contents agree on (R148) -/

theorem State.sameContents.reg_eq {s t : State} (h : s.sameContents t) (n : RegName) : t.reg n = s.reg n := by
  obtain ⟨hregs, -, -⟩ := h
  rw [State.reg, State.reg, hregs]

theorem State.sameContents.ip_eq {s t : State} (h : s.sameContents t) : t.ip = s.ip := h.reg_eq .ip

theorem State.sameContents.size_eq {s t : State} (h : s.sameContents t) : t.size = s.size := by
  obtain ⟨-, hsize, -⟩ := h
  rw [State.size, State.size, hsize]

theorem State.sameContents.byteAt_eq {s t : State} (h : s.sameContents t) {a : Word}
    (hin : a.toNat + 1 ≤ s.size) : t.byteAt a = s.byteAt a := by
  obtain ⟨-, -, hbytes⟩ := h
  exact (hbytes _ hin).symm

theorem State.sameContents.wordAt_eq {s t : State} (h : s.sameContents t) {a : Word}
    (hin : a.toNat + 2 ≤ s.size) : t.wordAt a = s.wordAt a := by
  have hsecond : (a + 1).toNat + 1 ≤ s.size := by rwa [toNat_succ_of_inside hin]
  rw [State.wordAt, State.wordAt, h.byteAt_eq (Nat.le_of_succ_le hin), h.byteAt_eq hsecond]

/-- The operands that follow the byte at `ip` are the same where both are inside memory. -/
theorem State.sameContents.instrAtIp_eq {s t : State} (h : s.sameContents t) {o : Opcode} {w x : Width}
    (hw : o.format.widths = [w, x]) (h1 : (s.ip + 1).toNat + w.bytes ≤ s.size)
    (h2 : (s.ip + 1 + BitVec.ofNat 16 w.bytes).toNat + x.bytes ≤ s.size) :
    t.instrAtIp o = s.instrAtIp o := by
  rw [BitVec.add_assoc] at h2
  cases o with
  | movLitReg =>
    cases hw
    rw [State.instrAtIp, State.instrAtIp, h.ip_eq, h.wordAt_eq h1, h.byteAt_eq (a := s.ip + 3) h2]
  | movRegReg =>
    cases hw
    rw [State.instrAtIp, State.instrAtIp, h.ip_eq, h.byteAt_eq h1, h.byteAt_eq (a := s.ip + 2) h2]
  | movRegMem =>
    cases hw
    rw [State.instrAtIp, State.instrAtIp, h.ip_eq, h.byteAt_eq h1, h.wordAt_eq (a := s.ip + 2) h2]
  | movMemReg =>
    cases hw
    rw [State.instrAtIp, State.instrAtIp, h.ip_eq, h.wordAt_eq h1, h.byteAt_eq (a := s.ip + 3) h2]
  | addRegReg =>
    cases hw
    rw [State.instrAtIp, State.instrAtIp, h.ip_eq, h.byteAt_eq h1, h.byteAt_eq (a := s.ip + 2) h2]
  | jmpNotEql =>
    cases hw
    rw [State.instrAtIp, State.instrAtIp, h.ip_eq, h.wordAt_eq h1, h.wordAt_eq (a := s.ip + 3) h2]

/-! ### What keeps the contents of two states the same -/

theorem State.sameContents.setReg {s t : State} (h : s.sameContents t) (n : RegName) (v : Nat) :
    (s.setReg n v).sameContents (t.setReg n v) := by
  obtain ⟨hregs, hmem⟩ := h
  exact ⟨by rw [State.setReg_regs, State.setReg_regs, hregs], hmem⟩

theorem State.sameContents.atIp {s t : State} (h : s.sameContents t) (a : Word) :
    (s.atIp a).sameContents (t.atIp a) := h.setReg .ip a.toNat

theorem State.sameContents.setWord {s t : State} (h : s.sameContents t) (a : Nat) (v : Word) :
    ({ s with mem := s.mem.setWord a v } : State).sameContents { t with mem := t.mem.setWord a v } := by
  obtain ⟨hregs, hsize, hbytes⟩ := h
  refine ⟨hregs, hsize, fun b hb => ?_⟩
  rw [Memory.byte_setWord, Memory.byte_setWord, hbytes b hb]

/-! ### Outcomes that agree -/

theorem outcomesAgree_boundsViolation {s t : State} (h : s.sameContents t) (a : Word) (w : Width)
    (k : AccessKind) : outcomesAgree (.fault (.boundsViolation a w k s)) (.fault (.boundsViolation a w k t)) :=
  ⟨rfl, rfl, rfl, h⟩

/-- One effect, from two states with the same contents. -/
theorem State.sameContents.exec_agree {s t : State} (h : s.sameContents t) (i : Instr) :
    outcomesAgree (exec i s) (exec i t) := by
  have hread : ∀ b, readOperand b t = readOperand b s := fun b => h.reg_eq (regOf b)
  cases i with
  | movLitReg lit rb => exact h.setReg _ _
  | movRegReg fb tb =>
    rw [exec_movRegReg, exec_movRegReg, hread]
    exact h.setReg _ _
  | movRegMem fb addr =>
    rcases Nat.lt_or_ge s.size (addr.toNat + 2) with hout | hin
    · rw [exec_movRegMem_outside fb hout, exec_movRegMem_outside fb (h.size_eq ▸ hout)]
      exact outcomesAgree_boundsViolation h _ _ _
    · rw [exec_movRegMem_inside fb hin, exec_movRegMem_inside fb (h.size_eq ▸ hin), hread]
      exact h.setWord _ _
  | movMemReg addr tb =>
    rcases Nat.lt_or_ge s.size (addr.toNat + 2) with hout | hin
    · rw [exec_movMemReg_outside tb hout, exec_movMemReg_outside tb (h.size_eq ▸ hout)]
      exact outcomesAgree_boundsViolation h _ _ _
    · rw [exec_movMemReg_inside_wordAt tb hin, exec_movMemReg_inside_wordAt tb (h.size_eq ▸ hin),
        h.wordAt_eq hin]
      exact h.setReg _ _
  | addRegReg b1 b2 =>
    rw [exec_addRegReg, exec_addRegReg, hread, hread]
    exact h.setReg _ _
  | jmpNotEql val tgt =>
    rw [exec, exec, execJmpNotEql, execJmpNotEql, h.reg_eq]
    split
    · exact h.setReg _ _
    · exact h

/-- A step on an opcode's byte, from two states with the same contents: the same operand is the first outside
memory, or the same instruction runs. -/
theorem State.sameContents.step_agree_of_opcode {s t : State} (h : s.sameContents t) {o : Opcode}
    (hin : s.ip.toNat + 1 ≤ s.size) (hb : s.byteAt s.ip = o.byte) : outcomesAgree (step s) (step t) := by
  obtain ⟨w, x, hw⟩ := exists_widths_eq_pair o
  have hin' : t.ip.toNat + 1 ≤ t.size := by rwa [h.ip_eq, h.size_eq]
  have hb' : t.byteAt t.ip = o.byte := by rw [h.ip_eq, h.byteAt_eq hin, hb]
  obtain ⟨hfirst, hsecond, hrun⟩ := step_operand_paths hw hin hb rfl
  obtain ⟨hfirst', hsecond', hrun'⟩ := step_operand_paths hw hin' hb' rfl
  rw [h.ip_eq, h.size_eq] at hfirst' hsecond' hrun'
  rcases Nat.lt_or_ge s.size ((s.ip + 1).toNat + w.bytes) with hout | h1
  · rw [hfirst hout, hfirst' hout]
    exact outcomesAgree_boundsViolation (h.atIp _) _ _ _
  rcases Nat.lt_or_ge s.size ((s.ip + 1 + BitVec.ofNat 16 w.bytes).toNat + x.bytes) with hout | h2
  · rw [hsecond h1 hout, hsecond' h1 hout]
    exact outcomesAgree_boundsViolation (h.atIp _) _ _ _
  · rw [hrun h1 h2, hrun' h1 h2, h.instrAtIp_eq hw h1 h2]
    exact (h.atIp _).exec_agree _

/-- Settles O42: the opcode fetch, the dispatch, the operand fetches and the effect each see the contents
alone. -/
theorem stepDependsOnContentsAlone : Obligations.StepDependsOnContentsAlone := by
  unfold Obligations.StepDependsOnContentsAlone
  intro s t h
  rcases Nat.lt_or_ge s.size (s.ip.toNat + 1) with hout | hin
  · have hout' : t.size < t.ip.toNat + 1 := by rwa [h.ip_eq, h.size_eq]
    rw [step_opcode_outside hout, step_opcode_outside hout', h.ip_eq]
    exact outcomesAgree_boundsViolation h _ _ _
  cases ho : Opcode.ofByte (s.byteAt s.ip) with
  | none =>
    have hin' : t.ip.toNat + 1 ≤ t.size := by rwa [h.ip_eq, h.size_eq]
    have hb : t.byteAt t.ip = s.byteAt s.ip := by rw [h.ip_eq, h.byteAt_eq hin]
    rw [step_unknown hin ho, step_unknown hin' (hb ▸ ho), hb, h.ip_eq]
    exact ⟨rfl, h.atIp _⟩
  | some o => exact h.step_agree_of_opcode hin (Opcode.ofByte_eq_some ho)

/-! ### Reset, an unloaded memory and boot (R140 to R144) -/

/-- Settles O53: `ip` is zero, so the step fetches the zero byte at address 0, which is no opcode. -/
theorem unloadedMemoryDoesNotRun : Obligations.UnloadedMemoryDoesNotRun := by
  unfold Obligations.UnloadedMemoryDoesNotRun
  intro s hregs hbytes
  have hip : s.ip = 0 := hregs .ip
  have hpos : 0 < s.size := s.mem.size.pos
  have hin : s.ip.toNat + 1 ≤ s.size := by rwa [hip]
  have hb : s.byteAt s.ip = 0x00 := hbytes _ hin
  have hstep := step_unknown hin (hb ▸ rfl)
  rw [hb, hip] at hstep
  exact ⟨_, hstep, s.atIp_frame _⟩

/-- Settles O40: nothing is listed in the memory of reset. -/
theorem resetMeetsTheInvariant : Obligations.ResetMeetsTheInvariant := by
  unfold Obligations.ResetMeetsTheInvariant
  exact Memory.wf_blank MemSize.reset

theorem serve_reset (s : State) : serve .reset s = .next ⟨State.construct s.mem, none⟩ := rfl

/-- Settles O52: the reset input is construction over the memory the core has. -/
theorem resetInputKeepsMemory : Obligations.ResetInputKeepsMemory := by
  unfold Obligations.ResetInputKeepsMemory
  exact fun s => ⟨_, serve_reset s, State.reg_construct s.mem, rfl⟩

@[simp] theorem boot_mem (m : Memory) (entry : Nat) : (boot m entry).mem = m := rfl

theorem toNat_ip_boot {m : Memory} {entry : Nat} (h : entry < m.size.val) :
    (boot m entry).ip.toNat = entry := by
  rw [boot, State.ip_setReg_ip, BitVec.toNat_ofNat]
  exact Nat.mod_eq_of_lt (Nat.lt_of_lt_of_le h m.size.le)

theorem reg_boot_other (m : Memory) (entry : Nat) {n : RegName} (h : n ≠ .ip) : (boot m entry).reg n = 0 := by
  rw [boot, State.reg_setReg_other _ _ h, State.reg_construct]

/-- Settles O54: an entry inside memory is the `ip` it is written to, and the fetch reads there. -/
theorem bootFetchesAtTheEntry : Obligations.BootFetchesAtTheEntry := by
  unfold Obligations.BootFetchesAtTheEntry
  intro m entry h
  have hip := toNat_ip_boot h
  have hin : (boot m entry).ip.toNat + 1 ≤ (boot m entry).size := by
    rw [hip]
    exact h
  have hfetch := fetch8_inside hin
  rw [State.byteAt, hip, boot_mem] at hfetch
  exact ⟨⟨_, hfetch⟩, fun _ => reg_boot_other m entry, boot_mem m entry⟩

end Sys2Proof.Machine
end
